-- ==== Sys2Proof/Word.lean ====
section
/-! DEFINITION. The two word sizes of the block (00_scope.md R5). -/

namespace Sys2Proof

/-- A word of the command stream, a tile cell, a palette entry, a pixel or a register (R4 `WORD`, `PIXEL_BITS`). -/
abbrev Word := BitVec 32

/-- A glyph row, a payload character or one byte of a block transfer (R5). -/
abbrev Byte := BitVec 8

end Sys2Proof
end

