-- ==== Sys2Proof/Config.lean ====
section
/-! DEFINITION. The parameters of the block that 00_scope.md R4 leaves open, and the free values of the model:
opaque constants of which nothing is known but their type. -/

namespace Sys2Proof

/-- `ROW_ORDER` (R4, R32): the order of rows in the exposed display buffer. -/
inductive RowOrder where
  | topDown
  | bottomUp
deriving DecidableEq, Repr

/-- What the host has bound to the block port for one coming `LOAD*` command (R40): a byte source, a source that does
not open, or one that errs before it has delivered the block. -/
inductive Source where
  | bytes (b : List Byte)
  | unopenable
  | unreadable
deriving DecidableEq, Repr, Inhabited

/-- What the host has bound to the block port for one coming `SAVE*` command (R40): a sink that takes the whole
block, one that does not open, or one that does not accept all of it. -/
inductive Sink where
  | accepts
  | unopenable
  | unwritable
deriving DecidableEq, Repr, Inhabited

/-- The open parameters of R4. One value of this type is one instance of the block; no command changes it. -/
structure Config where
  /-- `SCREEN_W`, the framebuffer's width in pixels -/
  screenW : Nat
  /-- `SCREEN_H`, the framebuffer's height in pixels -/
  screenH : Nat
  /-- `ROW_ORDER` -/
  rowOrder : RowOrder
  /-- `T_MARK`, the tile cell value that means transparent in bicolor mode -/
  tMark : Word
  /-- `DEFAULT_PALETTE`, what `GENPALETTE` writes -/
  defaultPalette : List Word
  /-- `DEFAULT_TILESET`, what `GENTILESET` writes, tile by tile -/
  defaultTileset : List (List Word)
deriving DecidableEq, Repr

/-- The constraints R4 puts on the parameters: both sizes at least 1, `T_MARK` neither 0 nor 1, the tables of the
shapes 256 and 768 x 64. -/
abbrev Config.wf (c : Config) : Prop :=
  1 ≤ c.screenW ∧ 1 ≤ c.screenH ∧ c.tMark ≠ 0#32 ∧ c.tMark ≠ 1#32 ∧ c.defaultPalette.length = 256 ∧
    c.defaultTileset.length = 768 ∧ ∀ t ∈ c.defaultTileset, t.length = 64

/-- Entry `i` of the default palette of the instance `State.reset` describes. FREE: the spec gives no contents
(91_not_in_source.md N6); log entry 2, DESIGN CHOICE of form, safe. -/
opaque Config.romPalette : Nat → Word

/-- Cell `k` of tile `t` of the default tileset of the instance `State.reset` describes. FREE: the spec gives no
contents (91_not_in_source.md N7); log entry 2, DESIGN CHOICE of form, safe. -/
opaque Config.romTile : Nat → Nat → Word

/-- What the `d`-th reset leaves in the framebuffer word at column `x` of row `y`. FREE: R25 calls it unspecified;
log entry 3, DESIGN CHOICE of form, safe. -/
opaque Config.resetFb : (d : Nat) → (x y : Nat) → Word

/-- What the `d`-th reset leaves in display word `a`. FREE: R25 calls it unspecified; log entry 4, DESIGN CHOICE of
form, safe. -/
opaque Config.resetDisplay : (d : Nat) → (a : Nat) → Word

/-- The source a `LOAD*` meets when the host has bound none in the model's state: the `n`-th free draw. FREE: R40
makes the answer a free input of the step; log entry 7, DESIGN CHOICE of form, safe. -/
opaque Config.freeSource : Nat → Source

/-- The sink a `SAVE*` meets when the host has bound none in the model's state: the `n`-th free draw. FREE: R40 makes
the answer a free input of the step; log entry 7, DESIGN CHOICE of form, safe. -/
opaque Config.freeSink : Nat → Sink

/-- The parameters at the defaults of R4: 320 x 240, `TOP_DOWN`, `T_MARK` 2; the two tables, which have no default,
are free. -/
def Config.standard : Config where
  screenW := 320
  screenH := 240
  rowOrder := .topDown
  tMark := 2#32
  defaultPalette := (List.range 256).map Config.romPalette
  defaultTileset := (List.range 768).map fun t => (List.range 64).map fun k => Config.romTile t k

end Sys2Proof
end

