-- ==== Sys2Proof/Machine/State.lean ====
section
/-! DEFINITION. The state of the block (10_state.md R9 to R20), the inputs of its steps, the ways a step can stop, and
the state after reset (R25, 70_reset_and_hazards.md R95). -/

namespace Sys2Proof.Machine

/-- The conditions a command reports (60_exceptions.md R84), each with what its `FINFO` is computed from. A reported
condition is a NEXT state in which the fault registers record it (R85, R87): it never stops the machine. -/
inductive Condition where
  /-- `IOError` 1: a source or sink did not open -/
  | ioOpen
  /-- `IOError` 2: the source erred or ended before the block was complete -/
  | ioRead
  /-- `IOError` 3: the sink did not accept the block -/
  | ioWrite
  /-- `IndexOutOfRange` 1, the glyph index operand -/
  | glyphIndex (v : Word)
  /-- `IndexOutOfRange` 2, the tile index operand -/
  | tileIndex (v : Word)
  /-- `IndexOutOfRange` 3, the palette index operand or the cell word -/
  | paletteIndex (v : Word)
  /-- `IndexOutOfRange` 4, the cell index operand -/
  | cellIndex (v : Word)
  /-- `InvalidTileEncoding` 1, the position of the first bad character -/
  | badChar (pos : Nat)
  /-- `InvalidTileEncoding` 2, `64*t + k` of the first cell that is no bicolor cell -/
  | badCell (pos : Nat)
  /-- `IllegalCommand` 1, the header word -/
  | reservedOpcode (h : Word)
  /-- `IllegalCommand` 2, the header word -/
  | headerField (h : Word)
  /-- `IllegalCommand` 3, the operand word -/
  | operandField (v : Word)
deriving DecidableEq, Repr

/-- What a `SAVE*` command left in the host's sink (20_memory.md R40): the block, or, when the write failed, contents
the spec calls unspecified. -/
inductive Delivered where
  | block (b : List Byte)
  | unspecified
deriving DecidableEq, Repr

/-- Reasons for which a step of the block stops the machine. There is none: the block records a fault and goes on
(60_exceptions.md R85, R87: "no operation is fatal"), and a hold leaves the state as it is (00_scope.md R8). Log
entry 9; safe, since the spec gives every command and every word of the stream an effect. -/
inductive Fault where
deriving DecidableEq, Repr

/-- Reasons for which the model gives an instruction no meaning. -/
inductive Refusal where
  /-- Raised by `exec` alone, for an instruction that has no meaning yet; no arm raises it now. Safe. -/
  | notModelled (mnemonic : String)
deriving DecidableEq, Repr

/-- The state a step reads and writes. `charset` to `result` are the architectural state of R9, whole; the other
fields are what the spec calls parameters and inputs of a model (R9, 00_scope.md R4, R8) and stand here because a step
has no other argument (log entries 1, 6, 7, 8), and the model's own counter of free values (log entry 5). -/
structure State where
  /-- the parameters of R4; no step changes them -/
  cfg : Config
  /-- `CHARSET` (R10): glyph `g`'s eight rows, row 0 the top -/
  charset : List (List Byte)
  /-- `FB` (R11): rows from the top, each from the left -/
  fb : List (List Word)
  /-- `TILE` (R12): tile `t`'s 64 cells -/
  tile : List (List Word)
  /-- `PAL` (R13) -/
  pal : List Word
  /-- `DISPLAY` (R14), linear -/
  display : List Word
  /-- `FSTAT` (R17) -/
  fstat : Word
  /-- `FCODE` (R18) -/
  fcode : Word
  /-- `FINFO` (R19) -/
  finfo : Word
  /-- `RESULT` (R20) -/
  result : Word
  /-- the stream words the host has pushed and the block has not consumed (30_encoding.md R52), next word first -/
  stream : List Word
  /-- what the host has bound to the port for the coming `LOAD*` commands (20_memory.md R40), next first -/
  sources : List Source
  /-- what the host has bound to the port for the coming `SAVE*` commands (R40), next first -/
  sinks : List Sink
  /-- what `SAVE*` commands have handed to the host (R40), oldest first -/
  sunk : List Delivered
  /-- MODEL'S OWN: how many free values have been drawn; it numbers the next one and no claim rests on it -/
  draws : Nat
deriving DecidableEq, Repr

/-- The state the `d`-th reset leaves in an instance with parameters `c` (R25): charset, tileset and palette zero,
registers zero, stream empty, framebuffer and display free values. -/
def State.resetOf (c : Config) (d : Nat) : State where
  cfg := c
  charset := List.replicate 256 (List.replicate 8 0#8)
  fb := (List.range c.screenH).map fun y => (List.range c.screenW).map fun x => Config.resetFb d x y
  tile := List.replicate 768 (List.replicate 64 0#32)
  pal := List.replicate 256 0#32
  display := (List.range (c.screenW * c.screenH)).map (Config.resetDisplay d)
  fstat := 0#32
  fcode := 0#32
  finfo := 0#32
  result := 0#32
  stream := []
  sources := []
  sinks := []
  sunk := []
  draws := d

/-- The machine right after reset (R25, R95), at the default parameters of R4. -/
def State.reset : State := State.resetOf Config.standard 0

/-- Replace `CHARSET`. -/
def State.setCharset (s : State) (v : List (List Byte)) : State := { s with charset := v }

/-- Replace `FB`. -/
def State.setFb (s : State) (v : List (List Word)) : State := { s with fb := v }

/-- Replace `TILE`. -/
def State.setTile (s : State) (v : List (List Word)) : State := { s with tile := v }

/-- Replace `PAL`. -/
def State.setPal (s : State) (v : List Word) : State := { s with pal := v }

/-- Replace `DISPLAY`. -/
def State.setDisplay (s : State) (v : List Word) : State := { s with display := v }

/-- Replace `RESULT`. -/
def State.setResult (s : State) (v : Word) : State := { s with result := v }

/-- Replace the three fault registers. -/
def State.setFaultRegs (s : State) (fstat fcode finfo : Word) : State :=
  { s with fstat := fstat, fcode := fcode, finfo := finfo }

/-- Replace the words of the stream not yet consumed. -/
def State.setStream (s : State) (v : List Word) : State := { s with stream := v }

/-- Replace the bound sources and the counter of free values. -/
def State.setSources (s : State) (v : List Source) (draws : Nat) : State := { s with sources := v, draws := draws }

/-- Replace the bound sinks and the counter of free values. -/
def State.setSinks (s : State) (v : List Sink) (draws : Nat) : State := { s with sinks := v, draws := draws }

/-- Replace the record of what was handed to the host's sinks. -/
def State.setSunk (s : State) (v : List Delivered) : State := { s with sunk := v }

end Sys2Proof.Machine
end

