-- ==== Sys2Proof/Machine/Flags.lean ====
section
/-! DEFINITION. What the fault registers record of a condition (60_exceptions.md R84, R85; 10_state.md R17 to R19).
The block has no condition flags (R23): these are all its status bits. -/

namespace Sys2Proof.Machine

/-- The column `CODE` of R84. -/
def conditionCode : Condition → Byte
  | .ioOpen | .ioRead | .ioWrite => 1#8
  | .glyphIndex _ | .tileIndex _ | .paletteIndex _ | .cellIndex _ => 2#8
  | .badChar _ | .badCell _ => 3#8
  | .reservedOpcode _ | .headerField _ | .operandField _ => 4#8

/-- The column `SUB` of R84. -/
def conditionSub : Condition → Byte
  | .ioOpen => 1#8
  | .ioRead => 2#8
  | .ioWrite => 3#8
  | .glyphIndex _ => 1#8
  | .tileIndex _ => 2#8
  | .paletteIndex _ => 3#8
  | .cellIndex _ => 4#8
  | .badChar _ => 1#8
  | .badCell _ => 2#8
  | .reservedOpcode _ => 1#8
  | .headerField _ => 2#8
  | .operandField _ => 3#8

/-- The column `FINFO` of R84. -/
def conditionInfo : Condition → Word
  | .ioOpen | .ioRead | .ioWrite => 0#32
  | .glyphIndex v | .tileIndex v | .paletteIndex v | .cellIndex v => v
  | .badChar pos | .badCell pos => BitVec.ofNat 32 pos
  | .reservedOpcode h | .headerField h => h
  | .operandField v => v

/-- `FSTAT` with the bit of a condition set: bit `CODE - 1` (R17, R85). -/
def fstatWith (fstat : Word) (c : Condition) : Word :=
  fstat ||| (1#32 <<< ((conditionCode c).toNat - 1))

/-- `FCODE` of a condition raised by the command with opcode byte `opc`: the bytes 0, `OPC`, `SUB`, `CODE` (R18, R85). -/
def fcodeOf (opc : Byte) (c : Condition) : Word :=
  0#8 ++ opc ++ conditionSub c ++ conditionCode c

end Sys2Proof.Machine
end

