-- ==== Sys2Proof/Syntax.lean ====
section
/-! DEFINITION. The commands of the block, one constructor per row of spec/opcode_table.json (30_encoding.md R46).
Operands stand in the order of R46 as the words the command carries; the header flags `ALIGN` and `INDEXED` come
first; a payload is the list of its bytes in string order (R44, R64). -/

namespace Sys2Proof

/-- A command with its operands (R42 to R46). -/
inductive Instr where
  /-- `CLEAR c` -/
  | clear (c : Word)
  /-- `SETPIXEL x, y, c` -/
  | setPixel (x y c : Word)
  /-- `PRESENT` -/
  | present
  /-- `DRAWCHAR g, x, y, fg, bg` -/
  | drawChar (g x y fg bg : Word)
  /-- `PRINT x, y, fg, bg, "str"`; `str` holds all `COUNT` payload bytes -/
  | print (x y fg bg : Word) (str : List Byte)
  /-- `SETGLYPH g, rows0to3, rows4to7` -/
  | setGlyph (g rows0to3 rows4to7 : Word)
  /-- `LOADCHARSET` -/
  | loadCharset
  /-- `SAVECHARSET` -/
  | saveCharset
  /-- `SETTILE t, ch[0] .. ch[63]` -/
  | setTile (t : Word) (chars : List Byte)
  /-- `CLEARTILE t` -/
  | clearTile (t : Word)
  /-- `INVERTTILE t` -/
  | invertTile (t : Word)
  /-- `SETTILECELL t, k, v` -/
  | setTileCell (t k v : Word)
  /-- `GETTILECELL t, k` -/
  | getTileCell (t k : Word)
  /-- `DRAWTILE[.ALIGN] t, fg, bg, x, y, w, h` -/
  | drawTile (align : Bool) (t fg bg x y w h : Word)
  /-- `DRAWTILEMC[.ALIGN][.INDEXED] t, x, y, w, h` -/
  | drawTileMc (align indexed : Bool) (t x y w h : Word)
  /-- `DRAWSTRING x, y, fg, bg, w, h, "str"`; `str` holds all `COUNT` payload bytes -/
  | drawString (x y fg bg w h : Word) (str : List Byte)
  /-- `GENTILESET` -/
  | genTileset
  /-- `LOADTILESET` -/
  | loadTileset
  /-- `SAVETILESET` -/
  | saveTileset
  /-- `SETCOLORRGB i, rgb` -/
  | setColorRgb (i rgb : Word)
  /-- `SETCOLORRAW i, v` -/
  | setColorRaw (i v : Word)
  /-- `GETCOLOR i` -/
  | getColor (i : Word)
  /-- `GENPALETTE` -/
  | genPalette
  /-- `LOADPALETTE` -/
  | loadPalette
  /-- `SAVEPALETTE` -/
  | savePalette
deriving DecidableEq, Repr

end Sys2Proof
end

