-- ==== Sys2Proof/WellFormed.lean ====
section
/-! DEFINITION. Which terms of `Instr` are commands that a stream can spell (30_encoding.md R42, R44; 42_tiles.md
R64): `COUNT` is a 16-bit field, and `SETTILE` carries exactly 64 characters. -/

namespace Sys2Proof

/-- A command some words of a stream encode. -/
def Instr.wf : Instr → Bool
  | .print _ _ _ _ str => decide (str.length ≤ 65535)
  | .drawString _ _ _ _ _ _ str => decide (str.length ≤ 65535)
  | .setTile _ chars => decide (chars.length = 64)
  | .clear _ | .setPixel _ _ _ | .present | .drawChar _ _ _ _ _ | .setGlyph _ _ _ | .loadCharset | .saveCharset
  | .clearTile _ | .invertTile _ | .setTileCell _ _ _ | .getTileCell _ _ | .drawTile _ _ _ _ _ _ _ _
  | .drawTileMc _ _ _ _ _ _ _ | .genTileset | .loadTileset | .saveTileset | .setColorRgb _ _ | .setColorRaw _ _
  | .getColor _ | .genPalette | .loadPalette | .savePalette => true

end Sys2Proof
end

