-- ==== Sys2Proof/Decode.lean ====
section
/-! DEFINITION. Command encoding (30_encoding.md R42 to R49, R52; byte packing 20_memory.md R27): the opcode map, the
header's fields and their legality, the length of a command, the decoder, total on every word list, and the encoder. -/

namespace Sys2Proof

/-- Byte `i` of a word, byte 0 the least significant (20_memory.md R27, R28). -/
def wordByte (v : Word) (i : Nat) : Byte := v.extractLsb' (8 * i) 8

/-- The word whose bytes are `b0` (least significant) to `b3` (R27, R28). -/
def joinBytes (b0 b1 b2 b3 : Byte) : Word := b3 ++ b2 ++ b1 ++ b0

/-- The bytes of a sequence of words, four to a word, least significant first (R27, R28). -/
def unpackBytes (ws : List Word) : List Byte :=
  ws.flatMap fun v => [wordByte v 0, wordByte v 1, wordByte v 2, wordByte v 3]

/-- The words that carry a sequence of bytes, four to a word, least significant first, the last word padded with
zero bytes (R27, R44). -/
def packBytes : List Byte → List Word
  | [] => []
  | [a] => [joinBytes a 0#8 0#8 0#8]
  | [a, b] => [joinBytes a b 0#8 0#8]
  | [a, b, c] => [joinBytes a b c 0#8]
  | a :: b :: c :: d :: rest => joinBytes a b c d :: packBytes rest

/-- The 25 operations of the opcode map (R46). -/
inductive Opcode where
  | clear | setPixel | present
  | drawChar | print | setGlyph | loadCharset | saveCharset
  | setTile | clearTile | invertTile | setTileCell | getTileCell | drawTile | drawTileMc | drawString
  | genTileset | loadTileset | saveTileset
  | setColorRgb | setColorRaw | getColor | genPalette | loadPalette | savePalette
deriving DecidableEq, Repr

/-- Every operation, in the order of R46. -/
def Opcode.all : List Opcode :=
  [.clear, .setPixel, .present, .drawChar, .print, .setGlyph, .loadCharset, .saveCharset, .setTile, .clearTile,
    .invertTile, .setTileCell, .getTileCell, .drawTile, .drawTileMc, .drawString, .genTileset, .loadTileset,
    .saveTileset, .setColorRgb, .setColorRaw, .getColor, .genPalette, .loadPalette, .savePalette]

/-- The column `OPC` of R46. -/
def Opcode.code : Opcode → Byte
  | .clear => 0x01#8
  | .setPixel => 0x02#8
  | .present => 0x03#8
  | .drawChar => 0x10#8
  | .print => 0x11#8
  | .setGlyph => 0x12#8
  | .loadCharset => 0x13#8
  | .saveCharset => 0x14#8
  | .setTile => 0x20#8
  | .clearTile => 0x21#8
  | .invertTile => 0x22#8
  | .setTileCell => 0x23#8
  | .getTileCell => 0x24#8
  | .drawTile => 0x25#8
  | .drawTileMc => 0x26#8
  | .drawString => 0x27#8
  | .genTileset => 0x28#8
  | .loadTileset => 0x29#8
  | .saveTileset => 0x2A#8
  | .setColorRgb => 0x30#8
  | .setColorRaw => 0x31#8
  | .getColor => 0x32#8
  | .genPalette => 0x33#8
  | .loadPalette => 0x34#8
  | .savePalette => 0x35#8

/-- The operation an opcode byte selects; `none` for a reserved opcode (R48). -/
def Opcode.ofByte (b : Byte) : Option Opcode := Opcode.all.find? fun o => o.code == b

/-- The column `NOPS` of R46: how many operand words follow the header. -/
def Opcode.nops : Opcode → Nat
  | .present | .loadCharset | .saveCharset | .genTileset | .loadTileset | .saveTileset | .genPalette | .loadPalette
  | .savePalette => 0
  | .clear | .clearTile | .invertTile | .getColor => 1
  | .getTileCell | .setColorRgb | .setColorRaw => 2
  | .setPixel | .setGlyph | .setTileCell => 3
  | .print => 4
  | .drawChar | .drawTileMc => 5
  | .drawString => 6
  | .drawTile => 7
  | .setTile => 17

/-- Shape `HWS`: the two commands that carry a payload of `COUNT` bytes (R42, R46). -/
def Opcode.hasPayload (o : Opcode) : Bool := o == .print || o == .drawString

/-- The operation of a command. -/
def Instr.opcode : Instr → Opcode
  | .clear _ => .clear
  | .setPixel _ _ _ => .setPixel
  | .present => .present
  | .drawChar _ _ _ _ _ => .drawChar
  | .print _ _ _ _ _ => .print
  | .setGlyph _ _ _ => .setGlyph
  | .loadCharset => .loadCharset
  | .saveCharset => .saveCharset
  | .setTile _ _ => .setTile
  | .clearTile _ => .clearTile
  | .invertTile _ => .invertTile
  | .setTileCell _ _ _ => .setTileCell
  | .getTileCell _ _ => .getTileCell
  | .drawTile _ _ _ _ _ _ _ _ => .drawTile
  | .drawTileMc _ _ _ _ _ _ _ => .drawTileMc
  | .drawString _ _ _ _ _ _ _ => .drawString
  | .genTileset => .genTileset
  | .loadTileset => .loadTileset
  | .saveTileset => .saveTileset
  | .setColorRgb _ _ => .setColorRgb
  | .setColorRaw _ _ => .setColorRaw
  | .getColor _ => .getColor
  | .genPalette => .genPalette
  | .loadPalette => .loadPalette
  | .savePalette => .savePalette

/-- Header field `OPC`, bits 7:0 (R42). -/
def hdrOpc (h : Word) : Byte := h.extractLsb' 0 8

/-- Header field `ALIGN`, bit 8 (R42). -/
def hdrAlign (h : Word) : Bool := h.getLsbD 8

/-- Header field `INDEXED`, bit 9 (R42). -/
def hdrIndexed (h : Word) : Bool := h.getLsbD 9

/-- The reserved header bits 15:10 (R42). -/
def hdrReserved (h : Word) : BitVec 6 := h.extractLsb' 10 6

/-- Header field `COUNT`, bits 31:16, the payload length in bytes (R42). -/
def hdrCount (h : Word) : Nat := (h.extractLsb' 16 16).toNat

/-- Flag legality (R47) of a header whose opcode selects `o`. -/
def flagsLegal (o : Opcode) (h : Word) : Bool :=
  (!hdrAlign h || o == .drawTile || o == .drawTileMc) && (!hdrIndexed h || o == .drawTileMc) &&
    (hdrReserved h == 0#6) && (hdrCount h == 0 || o.hasPayload)

/-- How many words carry `n` payload bytes: `ceil(n/4)` (R44). -/
def payloadWords (n : Nat) : Nat := (n + 3) / 4

/-- How many words follow the header `h` of a command of operation `o` (R45). -/
def bodyWords (o : Opcode) (h : Word) : Nat :=
  o.nops + if o.hasPayload then payloadWords (hdrCount h) else 0

/-- Why a header is illegal (R48): case (a), a reserved opcode, or case (b), a broken flag rule. -/
inductive IllegalHeader where
  | reservedOpcode
  | brokenFlags
deriving DecidableEq, Repr

/-- What a header says (R48): an illegal word, or an operation. The opcode is tested before the flags. -/
def readHeader (h : Word) : Except IllegalHeader Opcode :=
  match Opcode.ofByte (hdrOpc h) with
  | none => .error .reservedOpcode
  | some o => if flagsLegal o h then .ok o else .error .brokenFlags

/-- `Len(header)` (R45): an illegal header has length 1. -/
def headerLen (h : Word) : Nat :=
  match readHeader h with
  | .error _ => 1
  | .ok o => 1 + bodyWords o h

/-- The command of operation `o` with header `h` whose operand and payload words are `ws` (R43, R44, R46). -/
def buildInstr (o : Opcode) (h : Word) (ws : List Word) : Instr :=
  let op (i : Nat) : Word := ws.getD i 0#32
  let str : List Byte := (unpackBytes (ws.drop o.nops)).take (hdrCount h)
  match o with
  | .clear => .clear (op 0)
  | .setPixel => .setPixel (op 0) (op 1) (op 2)
  | .present => .present
  | .drawChar => .drawChar (op 0) (op 1) (op 2) (op 3) (op 4)
  | .print => .print (op 0) (op 1) (op 2) (op 3) str
  | .setGlyph => .setGlyph (op 0) (op 1) (op 2)
  | .loadCharset => .loadCharset
  | .saveCharset => .saveCharset
  | .setTile => .setTile (op 0) (unpackBytes ((ws.drop 1).take 16))
  | .clearTile => .clearTile (op 0)
  | .invertTile => .invertTile (op 0)
  | .setTileCell => .setTileCell (op 0) (op 1) (op 2)
  | .getTileCell => .getTileCell (op 0) (op 1)
  | .drawTile => .drawTile (hdrAlign h) (op 0) (op 1) (op 2) (op 3) (op 4) (op 5) (op 6)
  | .drawTileMc => .drawTileMc (hdrAlign h) (hdrIndexed h) (op 0) (op 1) (op 2) (op 3) (op 4)
  | .drawString => .drawString (op 0) (op 1) (op 2) (op 3) (op 4) (op 5) str
  | .genTileset => .genTileset
  | .loadTileset => .loadTileset
  | .saveTileset => .saveTileset
  | .setColorRgb => .setColorRgb (op 0) (op 1)
  | .setColorRaw => .setColorRaw (op 0) (op 1)
  | .getColor => .getColor (op 0)
  | .genPalette => .genPalette
  | .loadPalette => .loadPalette
  | .savePalette => .savePalette

/-- What the decoder finds at the head of a stream (R52). -/
inductive Decoded where
  /-- the stream does not yet hold the whole command -/
  | hold
  /-- an illegal header word, consumed alone, and the words after it -/
  | illegal (why : IllegalHeader) (header : Word) (rest : List Word)
  /-- a whole command and the words after it -/
  | command (i : Instr) (rest : List Word)
deriving DecidableEq, Repr

/-- The decoder of R52, total on every word list. -/
def decode : List Word → Decoded
  | [] => .hold
  | h :: ws =>
    match readHeader h with
    | .error why => .illegal why h ws
    | .ok o =>
      if ws.length < bodyWords o h then .hold
      else .command (buildInstr o h (ws.take (bodyWords o h))) (ws.drop (bodyWords o h))

/-- The header word with these fields and reserved bits zero (R42). -/
def makeHeader (o : Opcode) (align indexed : Bool) (count : Nat) : Word :=
  BitVec.ofNat 16 count ++ 0#6 ++ BitVec.ofBool indexed ++ BitVec.ofBool align ++ o.code

/-- The words of a command (R42 to R46); padding bytes are zero. -/
def encode : Instr → List Word
  | .clear c => [makeHeader .clear false false 0, c]
  | .setPixel x y c => [makeHeader .setPixel false false 0, x, y, c]
  | .present => [makeHeader .present false false 0]
  | .drawChar g x y fg bg => [makeHeader .drawChar false false 0, g, x, y, fg, bg]
  | .print x y fg bg str => [makeHeader .print false false str.length, x, y, fg, bg] ++ packBytes str
  | .setGlyph g r0 r4 => [makeHeader .setGlyph false false 0, g, r0, r4]
  | .loadCharset => [makeHeader .loadCharset false false 0]
  | .saveCharset => [makeHeader .saveCharset false false 0]
  | .setTile t chars => [makeHeader .setTile false false 0, t] ++ packBytes chars
  | .clearTile t => [makeHeader .clearTile false false 0, t]
  | .invertTile t => [makeHeader .invertTile false false 0, t]
  | .setTileCell t k v => [makeHeader .setTileCell false false 0, t, k, v]
  | .getTileCell t k => [makeHeader .getTileCell false false 0, t, k]
  | .drawTile align t fg bg x y w h => [makeHeader .drawTile align false 0, t, fg, bg, x, y, w, h]
  | .drawTileMc align indexed t x y w h => [makeHeader .drawTileMc align indexed 0, t, x, y, w, h]
  | .drawString x y fg bg w h str =>
    [makeHeader .drawString false false str.length, x, y, fg, bg, w, h] ++ packBytes str
  | .genTileset => [makeHeader .genTileset false false 0]
  | .loadTileset => [makeHeader .loadTileset false false 0]
  | .saveTileset => [makeHeader .saveTileset false false 0]
  | .setColorRgb i rgb => [makeHeader .setColorRgb false false 0, i, rgb]
  | .setColorRaw i v => [makeHeader .setColorRaw false false 0, i, v]
  | .getColor i => [makeHeader .getColor false false 0, i]
  | .genPalette => [makeHeader .genPalette false false 0]
  | .loadPalette => [makeHeader .loadPalette false false 0]
  | .savePalette => [makeHeader .savePalette false false 0]

/-- The stream words of one instruction given as a number: the first `nbits` bits are those of `w`, bit 0 the least
significant bit of the first word, every later word 0, cut at the instruction's own length (R45). -/
def tableWords (nbits w : Nat) : List Word :=
  let given := (List.range (max 1 ((nbits + 31) / 32))).map fun k =>
    BitVec.ofNat 32 ((w % 2 ^ nbits) >>> (32 * k))
  let len := headerLen (given.headD 0#32)
  (given ++ List.replicate len 0#32).take len

/-- The instruction the decoder reads from those words; `none` where it refuses them. -/
def decodeTableWord (nbits w : Nat) : Option Instr :=
  match decode (tableWords nbits w) with
  | .command i _ => some i
  | .hold => none
  | .illegal _ _ _ => none

end Sys2Proof
end

