-- ==== Sys2Proof/Machine/Operands.lean ====
section
/-! DEFINITION. How operand words are read (30_encoding.md R43, R44) and the geometry the draw commands compute from
them (41_font.md R57; 43_tile_draw.md R72; 20_memory.md R32). Arithmetic is over the integers (00_scope.md R5). -/

namespace Sys2Proof.Machine

/-- An index operand: the word read unsigned, `u(op)` (R43). -/
abbrev idx (v : Word) : Nat := v.toNat

/-- A coordinate or size operand: the word read signed, `s(op)` (R43). -/
abbrev coord (v : Word) : Int := v.toInt

/-- The characters a string command draws: those before the first `0x00`, or all of them (R44 `StrLen`). -/
def effective (str : List Byte) : List Byte := str.takeWhile fun b => b != 0#8

/-- The eight row bytes packed into the two operands of `SETGLYPH`, row 0 first (41_font.md R60). -/
def glyphRows (rows0to3 rows4to7 : Word) : List Byte := unpackBytes [rows0to3, rows4to7]

/-- Whether the pixel of column `c` of a glyph row byte is foreground: bit `7 - c` (R57). -/
def rowBit (row : Byte) (c : Nat) : Bool := row.getLsbD (7 - c)

/-- The tile cell a `SETTILE` character stands for; `none` for a character that is none of the three (42_tiles.md R64). -/
def charCell (tMark : Word) (ch : Byte) : Option Word :=
  if ch = 0x30#8 then some 0#32
  else if ch = 0x31#8 then some 1#32
  else if ch = 0x20#8 then some tMark
  else none

/-- Whether a cell word is a bicolor cell: OFF, ON or `T_MARK` (42_tiles.md R63). -/
def isBicolor (tMark v : Word) : Bool := v == 0#32 || v == 1#32 || v == tMark

/-- What inverting makes of a bicolor cell (42_tiles.md R66). -/
def invertCell (v : Word) : Word := if v = 0#32 then 1#32 else if v = 1#32 then 0#32 else v

/-- What a bicolor cell paints: nothing where it is transparent, else the foreground or the background colour
(43_tile_draw.md R73). -/
def bicolorPaint (tMark fg bg v : Word) : Option Word :=
  if v = tMark then none else if v = 1#32 then some fg else some bg

/-- `RGB(r, g, b)` (44_palette.md R77). -/
def rgbWord (r g b : Byte) : Word := 0#8 ++ r ++ g ++ b

/-- Block size from a destination size: division by 8 truncating toward zero (R72, R5). -/
abbrev blockSize (w : Int) : Int := w.tdiv 8

/-- One coordinate of the destination origin (R72): with `ALIGN` the grid multiple at or below it. -/
def origin (align : Bool) (x w : Int) : Int := if align then w * x.fdiv w else x

/-- The positions at which `DRAWSTRING` draws the tiles of a string (43_tile_draw.md R76): before each tile the wrap
test, after it one step right. -/
def layout (screenW : Nat) (w h : Int) : (px py : Int) → List Byte → List (Byte × Int × Int)
  | _, _, [] => []
  | px, py, b :: rest =>
    if px + w > screenW then (b, 0, py + h) :: layout screenW w h w (py + h) rest
    else (b, px, py) :: layout screenW w h (px + w) py rest

/-- The display word index of pixel `(x, y)` (R32). -/
def dispIndex (c : Config) (x y : Nat) : Nat :=
  match c.rowOrder with
  | .topDown => c.screenW * y + x
  | .bottomUp => c.screenW * (c.screenH - 1 - y) + x

end Sys2Proof.Machine
end

