-- ==== Sys2Proof/Machine/Ops.lean ====
section
/-! DEFINITION. The named operations every meaning is built from: access to the tables, raising a condition, the
clipped write sink and the block draw, the checks, the block layouts and the block port. -/

namespace Sys2Proof.Machine

/-- The shapes of the tables (10_state.md R9): the one form in which equal tables are equal data. -/
abbrev Memory.wf (s : State) : Prop :=
  s.charset.length = 256 ∧ (∀ g ∈ s.charset, g.length = 8) ∧
  s.fb.length = s.cfg.screenH ∧ (∀ r ∈ s.fb, r.length = s.cfg.screenW) ∧
  s.tile.length = 768 ∧ (∀ t ∈ s.tile, t.length = 64) ∧
  s.pal.length = 256 ∧ s.display.length = s.cfg.screenW * s.cfg.screenH

/-- `CHARSET[g][r]` (00_scope.md R6). Outside the table, which no command reads, this and the accessors below give 0
(log entry 10, DESIGN CHOICE). -/
def charRow (s : State) (g r : Nat) : Byte := (s.charset.getD g []).getD r 0#8

/-- `TILE[t][k]` (R6). -/
def cell (s : State) (t k : Nat) : Word := (s.tile.getD t []).getD k 0#32

/-- `PAL[i]` (R6). -/
def color (s : State) (i : Nat) : Word := s.pal.getD i 0#32

/-- The word at column `x` of row `y` of a pixel buffer. -/
def pixelOf (fb : List (List Word)) (x y : Nat) : Word := (fb.getD y []).getD x 0#32

/-- `FB[y][x]` (R6). -/
def pixel (s : State) (x y : Nat) : Word := pixelOf s.fb x y

/-- `DISPLAY[a]` (R6). -/
def displayWord (s : State) (a : Nat) : Word := s.display.getD a 0#32

/-- `CHARSET[g] <- rows`, all eight rows. -/
def setGlyphRows (s : State) (g : Nat) (rows : List Byte) : State := s.setCharset (s.charset.set g rows)

/-- `TILE[t] <- cells`, all 64 cells. -/
def setTileCells (s : State) (t : Nat) (cells : List Word) : State := s.setTile (s.tile.set t cells)

/-- `TILE[t][k] <- v`. -/
def setCell (s : State) (t k : Nat) (v : Word) : State := setTileCells s t ((s.tile.getD t []).set k v)

/-- `PAL[i] <- v`. -/
def setColor (s : State) (i : Nat) (v : Word) : State := s.setPal (s.pal.set i v)

/-- FAULT ENTRY (60_exceptions.md R85): the three fault registers record the condition and the opcode byte, and
nothing else changes. There is no handler and no return command (R87). -/
def recordFault (s : State) (opc : Byte) (c : Condition) : State :=
  s.setFaultRegs (fstatWith s.fstat c) (fcodeOf opc c) (conditionInfo c)

/-- Fault entry from a command of operation `o`. -/
def raise (s : State) (o : Opcode) (c : Condition) : State := recordFault s o.code c

/-- `PutPixel(x, y, c)` (40_framebuffer.md R53): a write outside the screen is dropped. -/
def putPixel (s : State) (x y : Int) (c : Word) : State :=
  if 0 ≤ x ∧ x < s.cfg.screenW ∧ 0 ≤ y ∧ y < s.cfg.screenH then
    s.setFb (s.fb.set y.toNat ((s.fb.getD y.toNat []).set x.toNat c))
  else s

/-- A list with each element replaced by what `f` makes of its position, counted from `n`, and itself. -/
def mapFrom {α : Type} (f : Nat → α → α) (n : Nat) : List α → List α
  | [] => []
  | a :: rest => f n a :: mapFrom f (n + 1) rest

/-- The framebuffer after an 8 x 8 grid of blocks, each `bw` by `bh` pixels, is drawn with its top-left corner at
`(x0, y0)`; grid cell `k = 8*row + col` paints `paint k`, or nothing where that is `none`. A pixel `(x, y)` on the screen lies
in cell `row = (y - y0) / bh`, `col = (x - x0) / bw`; a pixel off the screen is dropped (43_tile_draw.md R72, R73; 40_framebuffer.md R53).
Each pixel of the grid lies in one block, so this is what the `PutPixel` loops of R58, R73 and R75 leave (20_memory.md
R37; log entry 11). -/
def drawGrid (fb : List (List Word)) (paint : Nat → Option Word) (x0 y0 : Int) (bw bh : Nat) : List (List Word) :=
  mapFrom (fun y row =>
    let dy : Int := y - y0
    if 0 ≤ dy ∧ dy < 8 * bh then
      mapFrom (fun x old =>
        let dx : Int := x - x0
        if 0 ≤ dx ∧ dx < 8 * bw then (paint (8 * (dy.toNat / bh) + dx.toNat / bw)).getD old else old) 0 row
    else row) 0 fb

/-- What grid cell `k` of a glyph with these rows paints (41_font.md R57, R58): never nothing. -/
def glyphPaint (rows : List Byte) (fg bg : Word) (k : Nat) : Option Word :=
  some (if rowBit (rows.getD (k / 8) 0#8) (k % 8) then fg else bg)

/-- The framebuffer after glyph `g` is drawn in character cell `(x, y)` (41_font.md R58). -/
def drawGlyph (s : State) (fb : List (List Word)) (g : Nat) (x y : Int) (fg bg : Word) : List (List Word) :=
  drawGrid fb (glyphPaint (s.charset.getD g []) fg bg) (8 * x) (8 * y) 1 1

/-- The framebuffer after the characters of a string are drawn from character cell `(x, y)` to the right (41_font.md R59). -/
def drawGlyphs (s : State) (y : Int) (fg bg : Word) : (x : Int) → List Byte → List (List Word) → List (List Word)
  | _, [], fb => fb
  | x, b :: rest, fb => drawGlyphs s y fg bg (x + 1) rest (drawGlyph s fb b.toNat x y fg bg)

/-- `BicolorCheck(t)` (43_tile_draw.md R73): the lowest cell of tile `t` that is no bicolor cell. -/
def bicolorFault (s : State) (t : Nat) : Option Nat :=
  (List.range 64).find? fun k => !isBicolor s.cfg.tMark (cell s t k)

/-- The bicolor checks of a string in order (43_tile_draw.md R76): `64*t + k` of the first cell that fails. -/
def stringFault (s : State) : List Byte → Option Nat
  | [] => none
  | b :: rest =>
    match bicolorFault s b.toNat with
    | some k => some (64 * b.toNat + k)
    | none => stringFault s rest

/-- The lowest cell of tile `t` that is no palette index (43_tile_draw.md R75). -/
def indexFault (s : State) (t : Nat) : Option Nat :=
  (List.range 64).find? fun k => decide (256 ≤ idx (cell s t k))

/-- `DrawBi` (43_tile_draw.md R73). -/
def drawBi (s : State) (fb : List (List Word)) (t : Nat) (fg bg : Word) (x0 y0 : Int) (bw bh : Nat) : List (List Word) :=
  drawGrid fb (fun k => bicolorPaint s.cfg.tMark fg bg (cell s t k)) x0 y0 bw bh

/-- `DrawBi` of every tile of a layout in order (43_tile_draw.md R76). -/
def drawTiles (s : State) (fg bg : Word) (bw bh : Nat) : List (Byte × Int × Int) → List (List Word) → List (List Word)
  | [], fb => fb
  | (b, px, py) :: rest, fb => drawTiles s fg bg bw bh rest (drawBi s fb b.toNat fg bg px py bw bh)

/-- The colour of a cell word of a multicolor tile (42_tiles.md R63): itself, or the palette entry it names. -/
def multicolor (s : State) (indexed : Bool) (v : Word) : Word := if indexed then color s (idx v) else v

/-- The first `n` rows of `size` elements each of a linear block (20_memory.md R29, R30). -/
def rowsOf {α : Type} (size : Nat) : (n : Nat) → List α → List (List α)
  | 0, _ => []
  | n + 1, l => l.take size :: rowsOf size n (l.drop size)

/-- The charset block (20_memory.md R29). -/
def charsetBlock (s : State) : List Byte := s.charset.flatten

/-- The tileset block (R30), cells least significant byte first (R28). -/
def tilesetBlock (s : State) : List Byte := unpackBytes s.tile.flatten

/-- The palette block (R31), entries least significant byte first (R28). -/
def paletteBlock (s : State) : List Byte := unpackBytes s.pal

/-- The charset a charset block holds (R29). -/
def charsetOfBlock (b : List Byte) : List (List Byte) := rowsOf 8 256 b

/-- The tileset a tileset block holds (R30). -/
def tilesetOfBlock (b : List Byte) : List (List Word) := rowsOf 64 768 (packBytes b)

/-- The palette a palette block holds (R31). -/
def paletteOfBlock (b : List Byte) : List Word := packBytes b

/-- The answer to `BlockRead(n)` from a source (20_memory.md R40): its first `n` bytes, or a failure. -/
def sourceAnswer (n : Nat) : Source → Except Condition (List Byte)
  | .bytes b => if b.length < n then .error .ioRead else .ok (b.take n)
  | .unopenable => .error .ioOpen
  | .unreadable => .error .ioRead

/-- The source the next `LOAD*` meets: the one the host bound first, else a free value (R40). -/
def nextSource (s : State) : Source :=
  match s.sources with
  | src :: _ => src
  | [] => Config.freeSource s.draws

/-- The port after a `LOAD*` has used its source. -/
def useSource (s : State) : State :=
  match s.sources with
  | _ :: rest => s.setSources rest s.draws
  | [] => s.setSources [] (s.draws + 1)

/-- `BlockRead(n)` (R40) and, with its bytes, what `load` makes of the state; a failure is raised for operation `o`. -/
def loadBlock (s : State) (o : Opcode) (n : Nat) (load : State → List Byte → State) : State :=
  match sourceAnswer n (nextSource s) with
  | .error c => raise (useSource s) o c
  | .ok b => load (useSource s) b

/-- The sink the next `SAVE*` meets: the one the host bound first, else a free value (R40). -/
def nextSink (s : State) : Sink :=
  match s.sinks with
  | snk :: _ => snk
  | [] => Config.freeSink s.draws

/-- The port after a `SAVE*` has used its sink. -/
def useSink (s : State) : State :=
  match s.sinks with
  | _ :: rest => s.setSinks rest s.draws
  | [] => s.setSinks [] (s.draws + 1)

/-- Record what a `SAVE*` left in the host's sink. -/
def deliver (s : State) (d : Delivered) : State := s.setSunk (s.sunk ++ [d])

/-- `BlockWrite(b)` (R40): on `ok` the sink holds exactly `b`; a failure is raised for operation `o` and leaves the
sink unspecified. -/
def saveBlock (s : State) (o : Opcode) (b : List Byte) : State :=
  match nextSink s with
  | .accepts => deliver (useSink s) (.block b)
  | .unopenable => raise (deliver (useSink s) .unspecified) o .ioOpen
  | .unwritable => raise (deliver (useSink s) .unspecified) o .ioWrite

end Sys2Proof.Machine
end

