-- ==== Sys2Proof/Machine/Font.lean ====
section
/-! DEFINITION. The font rasterizer and the charset (41_font.md): `DRAWCHAR`, `PRINT`, `SETGLYPH`, `LOADCHARSET`,
`SAVECHARSET`. -/

namespace Sys2Proof.Machine

/-- `DRAWCHAR g, x, y, fg, bg` (R58). -/
def execDrawChar (g x y fg bg : Word) (s : State) : Host.Outcome State Fault Refusal :=
  .next (if 256 ≤ idx g then raise s .drawChar (.glyphIndex g)
    else s.setFb (drawGlyph s s.fb (idx g) (coord x) (coord y) fg bg))

/-- `PRINT x, y, fg, bg, "str"` (R59). -/
def execPrint (x y fg bg : Word) (str : List Byte) (s : State) : Host.Outcome State Fault Refusal :=
  .next (s.setFb (drawGlyphs s (coord y) fg bg (coord x) (effective str) s.fb))

/-- `SETGLYPH g, rows0to3, rows4to7` (R60). -/
def execSetGlyph (g rows0to3 rows4to7 : Word) (s : State) : Host.Outcome State Fault Refusal :=
  .next (if 256 ≤ idx g then raise s .setGlyph (.glyphIndex g)
    else setGlyphRows s (idx g) (glyphRows rows0to3 rows4to7))

/-- `LOADCHARSET` (R61). -/
def execLoadCharset (s : State) : Host.Outcome State Fault Refusal :=
  .next (loadBlock s .loadCharset 2048 fun s' b => s'.setCharset (charsetOfBlock b))

/-- `SAVECHARSET` (R62). -/
def execSaveCharset (s : State) : Host.Outcome State Fault Refusal :=
  .next (saveBlock s .saveCharset (charsetBlock s))

end Sys2Proof.Machine
end

