-- ==== Sys2Proof/Machine/Framebuffer.lean ====
section
/-! DEFINITION. Framebuffer control (40_framebuffer.md): `CLEAR`, `SETPIXEL`, `PRESENT`. -/

namespace Sys2Proof.Machine

/-- `CLEAR c` (R54): every word of `FB` becomes `c`. -/
def execClear (c : Word) (s : State) : Host.Outcome State Fault Refusal :=
  .next (s.setFb (List.replicate s.cfg.screenH (List.replicate s.cfg.screenW c)))

/-- `SETPIXEL x, y, c` (R55). -/
def execSetPixel (x y c : Word) (s : State) : Host.Outcome State Fault Refusal :=
  .next (putPixel s (coord x) (coord y) c)

/-- `PRESENT` (R56, 20_memory.md R32): the rows of `FB` in `ROW_ORDER`, end to end. -/
def execPresent (s : State) : Host.Outcome State Fault Refusal :=
  .next (s.setDisplay (match s.cfg.rowOrder with
    | .topDown => s.fb.flatten
    | .bottomUp => s.fb.reverse.flatten))

end Sys2Proof.Machine
end

