-- ==== Sys2Proof/Machine/Palette.lean ====
section
/-! DEFINITION. The palette (44_palette.md): `SETCOLORRGB`, `SETCOLORRAW`, `GETCOLOR`, `GENPALETTE`, `LOADPALETTE`,
`SAVEPALETTE`. -/

namespace Sys2Proof.Machine

/-- `SETCOLORRGB i, r, g, b` (R78): the reserved byte of the operand is tested before the index. -/
def execSetColorRgb (i rgb : Word) (s : State) : Host.Outcome State Fault Refusal :=
  .next (if wordByte rgb 3 ≠ 0#8 then raise s .setColorRgb (.operandField rgb)
    else if 256 ≤ idx i then raise s .setColorRgb (.paletteIndex i)
    else setColor s (idx i) (rgbWord (wordByte rgb 2) (wordByte rgb 1) (wordByte rgb 0)))

/-- `SETCOLORRAW i, v` (R79). -/
def execSetColorRaw (i v : Word) (s : State) : Host.Outcome State Fault Refusal :=
  .next (if 256 ≤ idx i then raise s .setColorRaw (.paletteIndex i) else setColor s (idx i) v)

/-- `GETCOLOR i` (R80). -/
def execGetColor (i : Word) (s : State) : Host.Outcome State Fault Refusal :=
  .next (if 256 ≤ idx i then raise s .getColor (.paletteIndex i) else s.setResult (color s (idx i)))

/-- `GENPALETTE` (R81): all 256 entries from `DEFAULT_PALETTE`. -/
def execGenPalette (s : State) : Host.Outcome State Fault Refusal :=
  .next (s.setPal s.cfg.defaultPalette)

/-- `LOADPALETTE` (R82). -/
def execLoadPalette (s : State) : Host.Outcome State Fault Refusal :=
  .next (loadBlock s .loadPalette 1024 fun s' b => s'.setPal (paletteOfBlock b))

/-- `SAVEPALETTE` (R83). -/
def execSavePalette (s : State) : Host.Outcome State Fault Refusal :=
  .next (saveBlock s .savePalette (paletteBlock s))

end Sys2Proof.Machine
end

