-- ==== Sys2Proof/Machine/TileDraw.lean ====
section
/-! DEFINITION. The tile scaler and the palette-indexed pixel writer (43_tile_draw.md): `DRAWTILE`, `DRAWTILEMC`,
`DRAWSTRING`. -/

namespace Sys2Proof.Machine

/-- `DRAWTILE[.ALIGN] t, fg, bg, x, y, w, h` (R74). -/
def execDrawTile (align : Bool) (t fg bg x y w h : Word) (s : State) : Host.Outcome State Fault Refusal :=
  .next (if 768 ≤ idx t then raise s .drawTile (.tileIndex t)
    else match bicolorFault s (idx t) with
      | some k => raise s .drawTile (.badCell (64 * idx t + k))
      | none =>
        let bw := blockSize (coord w)
        let bh := blockSize (coord h)
        if bw ≤ 0 ∨ bh ≤ 0 then s
        else s.setFb (drawBi s s.fb (idx t) fg bg (origin align (coord x) (coord w)) (origin align (coord y) (coord h))
          bw.toNat bh.toNat))

/-- `DRAWTILEMC[.ALIGN][.INDEXED] t, x, y, w, h` (R75). -/
def execDrawTileMc (align indexed : Bool) (t x y w h : Word) (s : State) : Host.Outcome State Fault Refusal :=
  .next (if 768 ≤ idx t then raise s .drawTileMc (.tileIndex t)
    else match if indexed then indexFault s (idx t) else none with
      | some k => raise s .drawTileMc (.paletteIndex (cell s (idx t) k))
      | none =>
        let bw := blockSize (coord w)
        let bh := blockSize (coord h)
        if bw ≤ 0 ∨ bh ≤ 0 then s
        else s.setFb (drawGrid s.fb (fun k => some (multicolor s indexed (cell s (idx t) k)))
          (origin align (coord x) (coord w)) (origin align (coord y) (coord h)) bw.toNat bh.toNat))

/-- `DRAWSTRING x, y, fg, bg, w, h, "str"` (R76): every character's tile is checked before any is drawn. -/
def execDrawString (x y fg bg w h : Word) (str : List Byte) (s : State) : Host.Outcome State Fault Refusal :=
  .next (match stringFault s (effective str) with
    | some p => raise s .drawString (.badCell p)
    | none =>
      let bw := blockSize (coord w)
      let bh := blockSize (coord h)
      if bw ≤ 0 ∨ bh ≤ 0 then s
      else s.setFb (drawTiles s fg bg bw.toNat bh.toNat
        (layout s.cfg.screenW (coord w) (coord h) (coord x) (coord y) (effective str)) s.fb))

end Sys2Proof.Machine
end

