-- ==== Sys2Proof/Machine/Tiles.lean ====
section
/-! DEFINITION. Tile data (42_tiles.md): `SETTILE`, `CLEARTILE`, `INVERTTILE`, `SETTILECELL`, `GETTILECELL`,
`GENTILESET`, `LOADTILESET`, `SAVETILESET`. -/

namespace Sys2Proof.Machine

/-- `SETTILE t, ch[0] .. ch[63]` (R64): the index first, then the characters in order, then all 64 cells. -/
def execSetTile (t : Word) (chars : List Byte) (s : State) : Host.Outcome State Fault Refusal :=
  .next (if 768 ≤ idx t then raise s .setTile (.tileIndex t)
    else match (List.range 64).find? fun i => (charCell s.cfg.tMark (chars.getD i 0#8)).isNone with
      | some i => raise s .setTile (.badChar i)
      | none => setTileCells s (idx t)
          ((List.range 64).map fun i => (charCell s.cfg.tMark (chars.getD i 0#8)).getD 0#32))

/-- `CLEARTILE t` (R65). -/
def execClearTile (t : Word) (s : State) : Host.Outcome State Fault Refusal :=
  .next (if 768 ≤ idx t then raise s .clearTile (.tileIndex t)
    else setTileCells s (idx t) (List.replicate 64 0#32))

/-- `INVERTTILE t` (R66). -/
def execInvertTile (t : Word) (s : State) : Host.Outcome State Fault Refusal :=
  .next (if 768 ≤ idx t then raise s .invertTile (.tileIndex t)
    else match bicolorFault s (idx t) with
      | some k => raise s .invertTile (.badCell (64 * idx t + k))
      | none => setTileCells s (idx t) ((s.tile.getD (idx t) []).map invertCell))

/-- `SETTILECELL t, k, v` (R67). -/
def execSetTileCell (t k v : Word) (s : State) : Host.Outcome State Fault Refusal :=
  .next (if 768 ≤ idx t then raise s .setTileCell (.tileIndex t)
    else if 64 ≤ idx k then raise s .setTileCell (.cellIndex k)
    else setCell s (idx t) (idx k) v)

/-- `GETTILECELL t, k` (R68). -/
def execGetTileCell (t k : Word) (s : State) : Host.Outcome State Fault Refusal :=
  .next (if 768 ≤ idx t then raise s .getTileCell (.tileIndex t)
    else if 64 ≤ idx k then raise s .getTileCell (.cellIndex k)
    else s.setResult (cell s (idx t) (idx k)))

/-- `GENTILESET` (R69): all 768 tiles from `DEFAULT_TILESET`. -/
def execGenTileset (s : State) : Host.Outcome State Fault Refusal :=
  .next (s.setTile s.cfg.defaultTileset)

/-- `LOADTILESET` (R70). -/
def execLoadTileset (s : State) : Host.Outcome State Fault Refusal :=
  .next (loadBlock s .loadTileset 196608 fun s' b => s'.setTile (tilesetOfBlock b))

/-- `SAVETILESET` (R71). -/
def execSaveTileset (s : State) : Host.Outcome State Fault Refusal :=
  .next (saveBlock s .saveTileset (tilesetBlock s))

end Sys2Proof.Machine
end

