-- ==== Sys2Proof/Machine/Dispatch.lean ====
section
/-! DEFINITION. The meaning of every command, one arm per constructor of `Instr`. -/

namespace Sys2Proof.Machine

/-- What a whole command does to the state its words have been consumed from (00_scope.md R8). -/
def exec (i : Instr) (s : State) : Host.Outcome State Fault Refusal :=
  match i with
  | .clear c => Sys2Proof.Machine.execClear c s
  | .setPixel x y c => Sys2Proof.Machine.execSetPixel x y c s
  | .present => Sys2Proof.Machine.execPresent s
  | .drawChar g x y fg bg => Sys2Proof.Machine.execDrawChar g x y fg bg s
  | .print x y fg bg str => Sys2Proof.Machine.execPrint x y fg bg str s
  | .setGlyph g rows0to3 rows4to7 => Sys2Proof.Machine.execSetGlyph g rows0to3 rows4to7 s
  | .loadCharset => Sys2Proof.Machine.execLoadCharset s
  | .saveCharset => Sys2Proof.Machine.execSaveCharset s
  | .setTile t chars => Sys2Proof.Machine.execSetTile t chars s
  | .clearTile t => Sys2Proof.Machine.execClearTile t s
  | .invertTile t => Sys2Proof.Machine.execInvertTile t s
  | .setTileCell t k v => Sys2Proof.Machine.execSetTileCell t k v s
  | .getTileCell t k => Sys2Proof.Machine.execGetTileCell t k s
  | .drawTile align t fg bg x y w h => Sys2Proof.Machine.execDrawTile align t fg bg x y w h s
  | .drawTileMc align indexed t x y w h => Sys2Proof.Machine.execDrawTileMc align indexed t x y w h s
  | .drawString x y fg bg w h str => Sys2Proof.Machine.execDrawString x y fg bg w h str s
  | .genTileset => Sys2Proof.Machine.execGenTileset s
  | .loadTileset => Sys2Proof.Machine.execLoadTileset s
  | .saveTileset => Sys2Proof.Machine.execSaveTileset s
  | .setColorRgb n rgb => Sys2Proof.Machine.execSetColorRgb n rgb s
  | .setColorRaw n v => Sys2Proof.Machine.execSetColorRaw n v s
  | .getColor n => Sys2Proof.Machine.execGetColor n s
  | .genPalette => Sys2Proof.Machine.execGenPalette s
  | .loadPalette => Sys2Proof.Machine.execLoadPalette s
  | .savePalette => Sys2Proof.Machine.execSavePalette s

end Sys2Proof.Machine
end

