-- ==== Sys2Proof/Machine/Fetch.lean ====
section
/-! DEFINITION. Taking the next command from the stream (30_encoding.md R48, R52). -/

namespace Sys2Proof.Machine

/-- What the decoder finds at the head of the stream (R52). -/
def fetch (s : State) : Decoded := decode s.stream

/-- The state after a command's words, or an illegal header, have been consumed: `rest` is left (R45, R52). -/
def consume (s : State) (rest : List Word) : State := s.setStream rest

/-- An illegal header (R48): the word is consumed alone and `IllegalCommand` is recorded with the header's own opcode
byte. -/
def takeIllegal (s : State) (why : IllegalHeader) (h : Word) (rest : List Word) : State :=
  recordFault (consume s rest) (hdrOpc h)
    (match why with
      | .reservedOpcode => .reservedOpcode h
      | .brokenFlags => .headerField h)

/-- Put the words of one instruction (see `tableWords`) before the stream's next word. -/
def placeWords (s : State) (nbits w : Nat) : State := s.setStream (tableWords nbits w ++ s.stream)

end Sys2Proof.Machine
end

