-- ==== Sys2Proof/Machine/Step.lean ====
section
/-! DEFINITION. One step of the block (00_scope.md R8; 30_encoding.md R52). -/

namespace Sys2Proof.Machine

/-- One step (R8, R52): a hold changes nothing; an illegal header is consumed and recorded; a whole command is
consumed and executed. -/
def step (s : State) : Host.Outcome State Fault Refusal :=
  match fetch s with
  | .hold => .next s
  | .illegal why h rest => .next (takeIllegal s why h rest)
  | .command i rest => exec i (consume s rest)

/-- The state in which the next command of the stream is the instruction with these bits (log entry 13). -/
def State.withFetchWord (s : State) (nbits w : Nat) : State := placeWords s nbits w

end Sys2Proof.Machine
end

