-- ==== Sys2Proof/Machine/Asm.lean ====
section
/-! DEFINITION. The textual form of commands (30_encoding.md R50): one line of text to the command it writes. The
pseudo-command `PRINTF` (R51) is expanded by the host before this. -/

namespace Sys2Proof.Machine

/-- The mnemonics of R46. -/
def mnemonic : Opcode → String
  | .clear => "CLEAR"
  | .setPixel => "SETPIXEL"
  | .present => "PRESENT"
  | .drawChar => "DRAWCHAR"
  | .print => "PRINT"
  | .setGlyph => "SETGLYPH"
  | .loadCharset => "LOADCHARSET"
  | .saveCharset => "SAVECHARSET"
  | .setTile => "SETTILE"
  | .clearTile => "CLEARTILE"
  | .invertTile => "INVERTTILE"
  | .setTileCell => "SETTILECELL"
  | .getTileCell => "GETTILECELL"
  | .drawTile => "DRAWTILE"
  | .drawTileMc => "DRAWTILEMC"
  | .drawString => "DRAWSTRING"
  | .genTileset => "GENTILESET"
  | .loadTileset => "LOADTILESET"
  | .saveTileset => "SAVETILESET"
  | .setColorRgb => "SETCOLORRGB"
  | .setColorRaw => "SETCOLORRAW"
  | .getColor => "GETCOLOR"
  | .genPalette => "GENPALETTE"
  | .loadPalette => "LOADPALETTE"
  | .savePalette => "SAVEPALETTE"

/-- The double quote that opens and closes a string. -/
def quoteChar : Char := Char.ofNat 34

/-- The backslash that begins an escape. -/
def escapeChar : Char := Char.ofNat 92

/-- Text without the spaces around it. -/
def trimSpaces (l : List Char) : List Char :=
  ((l.dropWhile (· == ' ')).reverse.dropWhile (· == ' ')).reverse

/-- Text cut at every separator `sep` that stands outside quotes; `cur` is the part read so far, last character first. -/
def cutAt (sep : Char) : (quoted : Bool) → (cur : List Char) → List Char → List (List Char)
  | _, cur, [] => [cur.reverse]
  | quoted, cur, c :: rest =>
    if c = quoteChar then cutAt sep (!quoted) (c :: cur) rest
    else if c = sep ∧ quoted = false then cur.reverse :: cutAt sep false [] rest
    else cutAt sep quoted (c :: cur) rest

/-- The value of a digit character in a base up to 16. -/
def digitOf (base : Nat) (c : Char) : Option Nat :=
  let v := if '0' ≤ c ∧ c ≤ '9' then c.toNat - 48
    else if 'a' ≤ c ∧ c ≤ 'f' then c.toNat - 87
    else if 'A' ≤ c ∧ c ≤ 'F' then c.toNat - 55
    else 16
  if v < base then some v else none

/-- A run of digits, most significant first, with the value read so far. -/
def digitsOf (base : Nat) : (acc : Nat) → List Char → Option Nat
  | acc, [] => some acc
  | acc, c :: rest =>
    match digitOf base c with
    | none => none
    | some v => digitsOf base (acc * base + v) rest

/-- A number: decimal, `0x` hexadecimal, or a negative decimal (R50). -/
def numberOf : List Char → Option Int
  | '0' :: 'x' :: d :: rest => (digitsOf 16 0 (d :: rest)).map Int.ofNat
  | '-' :: d :: rest => (digitsOf 10 0 (d :: rest)).map fun n => -Int.ofNat n
  | d :: rest => (digitsOf 10 0 (d :: rest)).map Int.ofNat
  | [] => none

/-- An operand word: a number that fits 32 bits, a negative one in two's complement (R50). -/
def wordOf (text : List Char) : Option Word :=
  match numberOf text with
  | none => none
  | some n => if -2147483648 ≤ n ∧ n < 4294967296 then some (BitVec.ofInt 32 n) else none

/-- A component or row byte: a number from 0 to 255 (R50). -/
def byteOf (text : List Char) : Option Byte :=
  match numberOf text with
  | none => none
  | some n => if 0 ≤ n ∧ n < 256 then some (BitVec.ofInt 8 n) else none

/-- The bytes of a string's characters; `\0` is byte 0 and `\xHH` byte HH (R50); the closing quote ends it. -/
def stringBytes : List Char → Option (List Byte)
  | [] => none
  | [c] => if c = quoteChar then some [] else none
  | c :: d :: rest =>
    if c = escapeChar then
      if d = '0' then (stringBytes rest).map (0#8 :: ·)
      else if d = 'x' then
        match rest with
        | a :: b :: rest' =>
          match digitOf 16 a, digitOf 16 b with
          | some x, some y => (stringBytes rest').map (BitVec.ofNat 8 (16 * x + y) :: ·)
          | _, _ => none
        | _ => none
      else none
    else if c = quoteChar ∨ 128 ≤ c.toNat then none
    else (stringBytes (d :: rest)).map (BitVec.ofNat 8 c.toNat :: ·)

/-- A quoted string (R50). -/
def stringOf : List Char → Option (List Byte)
  | [] => none
  | c :: rest => if c = quoteChar then stringBytes rest else none

/-- Header flags from the dot suffixes (R50): `ALIGN`, `INDEXED`. -/
def suffixFlags : List (List Char) → Option (Bool × Bool)
  | [] => some (false, false)
  | [a] => if a = "ALIGN".toList then some (true, false) else if a = "INDEXED".toList then some (false, true) else none
  | [a, b] =>
    if (a = "ALIGN".toList ∧ b = "INDEXED".toList) ∨ (a = "INDEXED".toList ∧ b = "ALIGN".toList) then some (true, true)
    else none
  | _ => none

/-- The command of operation `o` with these flags and argument texts (R50): `SETGLYPH` takes eight row bytes,
`SETCOLORRGB` three components, `SETTILE` eight strings of eight characters, the string commands a string after their
numbers, every other command its operand words. -/
def commandOf (o : Opcode) (align indexed : Bool) (args : List (List Char)) : Option Instr :=
  match o with
  | .setGlyph =>
    match args with
    | g :: rows =>
      match wordOf g, rows.mapM byteOf with
      | some g', some bs => if bs.length = 8 then
          some (.setGlyph g' ((packBytes bs).getD 0 0#32) ((packBytes bs).getD 1 0#32)) else none
      | _, _ => none
    | [] => none
  | .setColorRgb =>
    match args with
    | [i, r, g, b] =>
      match wordOf i, byteOf r, byteOf g, byteOf b with
      | some i', some r', some g', some b' => some (.setColorRgb i' (joinBytes b' g' r' 0#8))
      | _, _, _, _ => none
    | _ => none
  | .setTile =>
    match args with
    | t :: rows =>
      match wordOf t, rows.mapM stringOf with
      | some t', some bs =>
        if bs.length = 8 ∧ bs.all (fun b => b.length == 8) then some (.setTile t' bs.flatten) else none
      | _, _ => none
    | [] => none
  | .print =>
    match (args.take 4).mapM wordOf, (args.drop 4).mapM stringOf with
    | some [x, y, fg, bg], some [str] => if str.length ≤ 65535 then some (.print x y fg bg str) else none
    | _, _ => none
  | .drawString =>
    match (args.take 6).mapM wordOf, (args.drop 6).mapM stringOf with
    | some [x, y, fg, bg, w, h], some [str] =>
      if str.length ≤ 65535 then some (.drawString x y fg bg w h str) else none
    | _, _ => none
  | _ =>
    match args.mapM wordOf with
    | some ws => if ws.length = o.nops then some (buildInstr o (makeHeader o align indexed 0) ws) else none
    | none => none

/-- The command a line of text writes (R50); `none` where it writes none. -/
def assemble (line : String) : Option Instr :=
  let text := trimSpaces line.toList
  let head := text.takeWhile (· != ' ')
  let tail := trimSpaces (text.drop head.length)
  let args := if tail = [] then [] else (cutAt ',' false [] tail).map trimSpaces
  match cutAt '.' false [] head with
  | [] => none
  | name :: suffixes =>
    match Opcode.all.find? (fun o => (mnemonic o).toList == name), suffixFlags suffixes with
    | some o, some (align, indexed) =>
      if flagsLegal o (makeHeader o align indexed 0) then commandOf o align indexed args else none
    | _, _ => none

end Sys2Proof.Machine
end

