-- ==== Sys2Proof/Machine/HostPort.lean ====
section
/-! DEFINITION. What the host can do to the block between two steps (70_reset_and_hazards.md R102). -/

namespace Sys2Proof.Machine

/-- Push command words; they queue in order (R102). -/
def pushWords (s : State) (ws : List Word) : State := s.setStream (s.stream ++ ws)

/-- Read a register by number (10_state.md R15, R16): a number outside 0 to 6 reads as 0; a
size of 2^32 or more reads modulo 2^32 (log entry 14, DEDUCED). -/
def readReg (s : State) (n : Nat) : Word :=
  match n with
  | 0 => BitVec.ofNat 32 s.cfg.screenW
  | 1 => BitVec.ofNat 32 s.cfg.screenH
  | 2 => match s.cfg.rowOrder with
    | .topDown => 0#32
    | .bottomUp => 1#32
  | 3 => s.fstat
  | 4 => s.fcode
  | 5 => s.finfo
  | 6 => s.result
  | _ => 0#32

/-- Write a register: no effect (10_state.md R15). -/
def writeReg (s : State) (_ : Nat) (_ : Word) : State := s

/-- `DISPLAY` as the bytes the host copies (20_memory.md R28, R32). -/
def displayBytes (s : State) : List Byte := unpackBytes s.display

/-- Bind a source to the port, for the first `LOAD*` command that has none yet (20_memory.md R40). -/
def bindSource (s : State) (src : Source) : State := s.setSources (s.sources ++ [src]) s.draws

/-- Bind a sink to the port, for the first `SAVE*` command that has none yet (20_memory.md R40). -/
def bindSink (s : State) (snk : Sink) : State := s.setSinks (s.sinks ++ [snk]) s.draws

/-- Apply reset (70_reset_and_hazards.md R95): the state of 10_state.md R25 with the same parameters, the stream empty,
fresh free values in `FB` and `DISPLAY`; what the host has bound and received is the host's and stays (log entry 16). -/
def applyReset (s : State) : State :=
  { State.resetOf s.cfg (s.draws + 1) with sources := s.sources, sinks := s.sinks, sunk := s.sunk }

end Sys2Proof.Machine
end

