-- ==== Sys2Proof/Safety.lean ====
section
/-! DEFINITION. What claims are stated in: the end of a run, a clean run, the invariant of the block's state, what a
command leaves unchanged, and the draw commands as the loops of `PutPixel` their rules write down. -/

namespace Sys2Proof.Machine

/-- THE RUN IS OVER when the stream is empty after the last command (70_reset_and_hazards.md R101). -/
abbrev RunOver (s : State) : Prop := s.stream = []

/-- The block holds for missing words inside a command (30_encoding.md R52): such a run is not over (R101). -/
abbrev Held (s : State) : Prop := s.stream ≠ [] ∧ fetch s = .hold

/-- A clean run has recorded no fault (R101). -/
abbrev Clean (s : State) : Prop := s.fstat = 0#32

/-- The fault registers hold only what 10_state.md R17 and R18 allow: `FSTAT` bits 31:4 and `FCODE` bits 31:24 read 0. -/
abbrev FaultRegs.wf (s : State) : Prop := s.fstat >>> 4 = 0#32 ∧ s.fcode >>> 24 = 0#32

/-- The invariant of the block: parameters as 00_scope.md R4 constrains them, tables of the shapes of R9, reserved
bits of the fault registers zero. -/
abbrev StateInv (s : State) : Prop := s.cfg.wf ∧ Memory.wf s ∧ FaultRegs.wf s

/-- Only `FB` may differ. -/
abbrev OnlyFb (s t : State) : Prop := t = { s with fb := t.fb }

/-- Only `CHARSET` may differ. -/
abbrev OnlyCharset (s t : State) : Prop := t = { s with charset := t.charset }

/-- Only `TILE` may differ. -/
abbrev OnlyTile (s t : State) : Prop := t = { s with tile := t.tile }

/-- Only `PAL` may differ. -/
abbrev OnlyPal (s t : State) : Prop := t = { s with pal := t.pal }

/-- Only `DISPLAY` may differ. -/
abbrev OnlyDisplay (s t : State) : Prop := t = { s with display := t.display }

/-- Only `RESULT` may differ. -/
abbrev OnlyResult (s t : State) : Prop := t = { s with result := t.result }

/-- The state after fault entry (60_exceptions.md R85) by a command with opcode byte `opc`, with the numbers of R84. -/
def Recorded (s : State) (opc sub code : Byte) (info : Word) : State :=
  { s with fstat := s.fstat ||| (1#32 <<< (code.toNat - 1)), fcode := 0#8 ++ opc ++ sub ++ code, finfo := info }

/-- `ws` are the payload words of the bytes `str` (30_encoding.md R44): `ceil(COUNT/4)` words, byte `i` in word
`i quot 4` at bits `8*(i mod 4)+7 : 8*(i mod 4)`; the padding is whatever it is. -/
def PayloadSpells (ws : List Word) (str : List Byte) : Prop :=
  ws.length = (str.length + 3) / 4 ∧
    ∀ i < str.length, str.getD i 0#8 = (ws.getD (i / 4) 0#32).extractLsb' (8 * (i % 4)) 8

/-- `n` is the effective length of `str` (30_encoding.md R44 `StrLen`). -/
def IsStrLen (str : List Byte) (n : Nat) : Prop :=
  n ≤ str.length ∧ (∀ i < n, str.getD i 0#8 ≠ 0#8) ∧ (n < str.length → str.getD n 0#8 = 0#8)

/-- A cell word that is none of OFF, ON, `T_MARK` (42_tiles.md R63). -/
abbrev NotBicolor (s : State) (t k : Nat) : Prop :=
  cell s t k ≠ 0#32 ∧ cell s t k ≠ 1#32 ∧ cell s t k ≠ s.cfg.tMark

/-- Cell `k` is the lowest cell of tile `t` that is no bicolor cell. -/
abbrev FirstBad (s : State) (t k : Nat) : Prop := k < 64 ∧ NotBicolor s t k ∧ ∀ j < k, ¬ NotBicolor s t j

/-- Every cell of tile `t` is a bicolor cell. -/
abbrev BicolorTile (s : State) (t : Nat) : Prop := ∀ k < 64, ¬ NotBicolor s t k

/-- A coordinate of the origin as R72 writes it. -/
abbrev OriginOf (align : Bool) (x w : Int) : Int := if align then w * x.fdiv w else x

/-- `for i in 0..n-1: f i`. -/
def forTo (n : Nat) (f : Nat → State → State) (s : State) : State := (List.range n).foldl (fun st i => f i st) s

/-- The loops of `DRAWCHAR` (41_font.md R58, R57). -/
def loopDrawChar (g : Nat) (x y : Int) (fg bg : Word) (s : State) : State :=
  forTo 8 (fun r => forTo 8 fun c st =>
    putPixel st (8 * x + c) (8 * y + r) (if (charRow st g r).getLsbD (7 - c) then fg else bg)) s

/-- The loop of `PRINT` (R59) over the first `n` characters: character `i` as `DRAWCHAR str[i], x+i, y` draws it. -/
def loopPrint (n : Nat) (str : List Byte) (x y : Int) (fg bg : Word) (s : State) : State :=
  forTo n (fun i => loopDrawChar (str.getD i 0#8).toNat (x + i) y fg bg) s

/-- The two inner loops of R73 and R75: one block of `bw` by `bh` pixels of colour `c`. -/
def loopBlock (x y : Int) (bw bh : Nat) (c : Word) (s : State) : State :=
  forTo bh (fun j => forTo bw fun i st => putPixel st (x + i) (y + j) c) s

/-- `DrawBi` (43_tile_draw.md R73). -/
def loopDrawBi (t : Nat) (fg bg : Word) (x0 y0 : Int) (bw bh : Nat) (s : State) : State :=
  forTo 8 (fun row => forTo 8 fun col st =>
    if cell st t (8 * row + col) = st.cfg.tMark then st
    else loopBlock (x0 + col * bw) (y0 + row * bh) bw bh (if cell st t (8 * row + col) = 1#32 then fg else bg) st) s

/-- The loops of `DRAWTILEMC` (R75). -/
def loopDrawMc (indexed : Bool) (t : Nat) (x0 y0 : Int) (bw bh : Nat) (s : State) : State :=
  forTo 8 (fun row => forTo 8 fun col st =>
    loopBlock (x0 + col * bw) (y0 + row * bh) bw bh
      (if indexed then color st (cell st t (8 * row + col)).toNat else cell st t (8 * row + col)) st) s

/-- The loop of `DRAWSTRING` (R76) from position `(px, py)` on. -/
def loopDrawString (fg bg : Word) (w h : Int) (bw bh : Nat) : (px py : Int) → List Byte → State → State
  | _, _, [], s => s
  | px, py, b :: rest, s =>
    let wraps := decide (px + w > s.cfg.screenW)
    let px' := if wraps then 0 else px
    let py' := if wraps then py + h else py
    loopDrawString fg bg w h bw bh (px' + w) py' rest (loopDrawBi b.toNat fg bg px' py' bw bh s)

end Sys2Proof.Machine
end

