-- ==== Sys2Proof/Certificates/Slice0/Obligations.lean ====
section
/-! DEFINITION. What is claimed of the block, rule by rule. -/

open Sys2Proof Sys2Proof.Machine

/-! ### Decoding and stepping -/

/-- Decoding the words of a well-formed command, whatever words follow, gives that command and those words. -/
def Obligations.DecodeInvertsEncode : Prop :=
  ∀ (i : Instr) (rest : List Word), i.wf = true → decode (encode i ++ rest) = .command i rest

/-- What the decoder calls a command is well formed, and the words it takes are as many as `Len` of the header says
(R45): one, the operand words, and for a string command the payload words. -/
def Obligations.DecodedCommandHasHeaderLength : Prop :=
  ∀ (h : Word) (ws rest : List Word) (i : Instr), decode (h :: ws) = .command i rest →
    i.wf = true ∧ hdrOpc h = i.opcode.code ∧ ∃ body, ws = body ++ rest ∧
      body.length = i.opcode.nops + if hdrOpc h = 0x11#8 ∨ hdrOpc h = 0x27#8 then (hdrCount h + 3) / 4 else 0

/-- More words pushed behind a command, or behind an illegal header, do not change how it is decoded. -/
def Obligations.PushedWordsDoNotChangeDecoding : Prop :=
  ∀ (ws more rest : List Word),
    (∀ i, decode ws = .command i rest → decode (ws ++ more) = .command i (rest ++ more)) ∧
      ∀ why h, decode ws = .illegal why h rest → decode (ws ++ more) = .illegal why h (rest ++ more)

/-- Words written out from the spec decode to the commands they stand for, one or more of each family. -/
def Obligations.SpecWordsDecode : Prop :=
  decode [0x00000001#32, 0x00000000#32] = .command (.clear 0#32) [] ∧
  decode [0x00000002#32, 0x00000003#32, 0xFFFFFFFF#32, 0x00FF0000#32]
    = .command (.setPixel 3#32 0xFFFFFFFF#32 0xFF0000#32) [] ∧
  decode [0x00000010#32, 0x00000041#32, 0x00000001#32, 0x00000001#32, 0x00FFFFFF#32, 0x00000000#32]
    = .command (.drawChar 65#32 1#32 1#32 0xFFFFFF#32 0#32) [] ∧
  decode [0x00020011#32, 0x00000000#32, 0x00000000#32, 0x00FFFFFF#32, 0x00000000#32, 0x00004948#32]
    = .command (.print 0#32 0#32 0xFFFFFF#32 0#32 [0x48#8, 0x49#8]) [] ∧
  decode [0x00000023#32, 0x00000002#32, 0x00000009#32, 0x00FF00FF#32]
    = .command (.setTileCell 2#32 9#32 0xFF00FF#32) [] ∧
  decode [0x00000125#32, 0x00000001#32, 0x00000005#32, 0x00000006#32, 0x00000011#32, 0x00000009#32, 0x00000010#32,
    0x00000008#32] = .command (.drawTile true 1#32 5#32 6#32 17#32 9#32 16#32 8#32) [] ∧
  decode [0x00000226#32, 0x00000002#32, 0x00000000#32, 0x00000000#32, 0x00000008#32, 0x00000008#32]
    = .command (.drawTileMc false true 2#32 0#32 0#32 8#32 8#32) [] ∧
  decode [0x00000031#32, 0x000000FF#32, 0x80112233#32] = .command (.setColorRaw 255#32 0x80112233#32) []

/-- A step at a stream that begins with a whole command consumes its words and is `exec` of the command. -/
def Obligations.StepRunsDecodedCommand : Prop :=
  ∀ (s : State) (i : Instr) (rest : List Word), decode s.stream = .command i rest →
    step s = exec i { s with stream := rest }

/-- A step holds, and changes nothing, exactly while the stream is empty or shorter than the command its header word
begins; `headerLen` of an illegal header is 1, so such a word never holds. -/
def Obligations.ShortStreamHolds : Prop :=
  ∀ s : State,
    ((s.stream = [] ∨ s.stream.length < headerLen (s.stream.headD 0#32)) → step s = .next s) ∧
      (decode s.stream = .hold ↔ s.stream = [] ∨ s.stream.length < headerLen (s.stream.headD 0#32))

/-- The opcode bytes of R46. -/
def specOpcodes : List Byte :=
  [0x01#8, 0x02#8, 0x03#8, 0x10#8, 0x11#8, 0x12#8, 0x13#8, 0x14#8, 0x20#8, 0x21#8, 0x22#8, 0x23#8, 0x24#8, 0x25#8,
    0x26#8, 0x27#8, 0x28#8, 0x29#8, 0x2A#8, 0x30#8, 0x31#8, 0x32#8, 0x33#8, 0x34#8, 0x35#8]

/-- A header breaks the flag rule R47. -/
def BreaksFlagRule (h : Word) : Prop :=
  (h.getLsbD 8 = true ∧ hdrOpc h ∉ [0x25#8, 0x26#8]) ∨ (h.getLsbD 9 = true ∧ hdrOpc h ≠ 0x26#8) ∨
    (h.extractLsb' 16 16 ≠ 0#16 ∧ hdrOpc h ∉ [0x11#8, 0x27#8]) ∨ h.extractLsb' 10 6 ≠ 0#6

/-- Illegal encodings (R48, R47): a reserved opcode is consumed alone and recorded with `SUB` 1, a known opcode that
breaks the flag rule with `SUB` 2, `FINFO` the header; an operand that breaks a must-be-zero rule (`SETCOLORRGB` alone)
is recorded with `SUB` 3 and the whole command is consumed; every other header is no illegal one. -/
def Obligations.IllegalEncodingsAreRecorded : Prop :=
  ∀ (s : State) (h : Word) (ws : List Word), s.stream = h :: ws →
    (hdrOpc h ∉ specOpcodes → step s = .next (Recorded { s with stream := ws } (hdrOpc h) 1#8 4#8 h)) ∧
    (hdrOpc h ∈ specOpcodes → BreaksFlagRule h →
      step s = .next (Recorded { s with stream := ws } (hdrOpc h) 2#8 4#8 h)) ∧
    (hdrOpc h ∈ specOpcodes → ¬ BreaksFlagRule h → ∀ why rest, decode s.stream ≠ .illegal why h rest) ∧
    ∀ (i rgb : Word) (rest : List Word), h = 0x00000030#32 → ws = i :: rgb :: rest → rgb.extractLsb' 24 8 ≠ 0#8 →
      step s = .next (Recorded { s with stream := rest } 0x30#8 3#8 4#8 rgb)

/-! ### Faults -/

/-- Fault entry (R85) with the numbers of R84, for every condition: only the three fault registers change. -/
def Obligations.FaultEntryRecordsCodeSubAndInfo : Prop :=
  ∀ (s : State) (o : Opcode) (v : Word) (n : Nat),
    raise s o .ioOpen = Recorded s o.code 1#8 1#8 0#32 ∧
    raise s o .ioRead = Recorded s o.code 2#8 1#8 0#32 ∧
    raise s o .ioWrite = Recorded s o.code 3#8 1#8 0#32 ∧
    raise s o (.glyphIndex v) = Recorded s o.code 1#8 2#8 v ∧
    raise s o (.tileIndex v) = Recorded s o.code 2#8 2#8 v ∧
    raise s o (.paletteIndex v) = Recorded s o.code 3#8 2#8 v ∧
    raise s o (.cellIndex v) = Recorded s o.code 4#8 2#8 v ∧
    raise s o (.badChar n) = Recorded s o.code 1#8 3#8 (BitVec.ofNat 32 n) ∧
    raise s o (.badCell n) = Recorded s o.code 2#8 3#8 (BitVec.ofNat 32 n) ∧
    raise s o (.reservedOpcode v) = Recorded s o.code 1#8 4#8 v ∧
    raise s o (.headerField v) = Recorded s o.code 2#8 4#8 v ∧
    raise s o (.operandField v) = Recorded s o.code 3#8 4#8 v

/-- No step clears a fault bit. -/
def Obligations.NoStepClearsFaultBit : Prop :=
  ∀ s t : State, step s = .next t → s.fstat &&& t.fstat = s.fstat

/-- The pairs `(CODE, SUB)` a command may raise (R89). -/
def specFaults : Instr → List (Byte × Byte)
  | .clear _ | .setPixel _ _ _ | .present | .print _ _ _ _ _ | .genTileset | .genPalette => []
  | .drawChar _ _ _ _ _ | .setGlyph _ _ _ => [(2#8, 1#8)]
  | .loadCharset | .loadTileset | .loadPalette => [(1#8, 1#8), (1#8, 2#8)]
  | .saveCharset | .saveTileset | .savePalette => [(1#8, 1#8), (1#8, 3#8)]
  | .setTile _ _ => [(2#8, 2#8), (3#8, 1#8)]
  | .clearTile _ => [(2#8, 2#8)]
  | .invertTile _ => [(2#8, 2#8), (3#8, 2#8)]
  | .setTileCell _ _ _ | .getTileCell _ _ => [(2#8, 2#8), (2#8, 4#8)]
  | .drawTile _ _ _ _ _ _ _ _ => [(2#8, 2#8), (3#8, 2#8)]
  | .drawTileMc _ indexed _ _ _ _ _ => if indexed then [(2#8, 2#8), (2#8, 3#8)] else [(2#8, 2#8)]
  | .drawString _ _ _ _ _ _ _ => [(3#8, 2#8)]
  | .setColorRgb _ _ => [(4#8, 3#8), (2#8, 3#8)]
  | .setColorRaw _ _ | .getColor _ => [(2#8, 3#8)]

/-- A command either leaves the fault registers as they are, or records one of the faults R89 lists for it and leaves
every table, `FB`, `DISPLAY`, `RESULT` and the rest of the stream as they are. -/
def Obligations.FaultingCommandHasNoOtherEffect : Prop :=
  ∀ (i : Instr) (s t : State), exec i s = .next t →
    (t.fstat = s.fstat ∧ t.fcode = s.fcode ∧ t.finfo = s.finfo) ∨
      ∃ codeSub ∈ specFaults i,
        t.fstat = s.fstat ||| (1#32 <<< (codeSub.1.toNat - 1)) ∧
        t.fcode = 0#8 ++ i.opcode.code ++ codeSub.2 ++ codeSub.1 ∧
        t.cfg = s.cfg ∧ t.charset = s.charset ∧ t.fb = s.fb ∧ t.tile = s.tile ∧ t.pal = s.pal ∧
        t.display = s.display ∧ t.result = s.result ∧ t.stream = s.stream

/-! ### Framebuffer control -/

/-- R54, whole. -/
def Obligations.ClearFillsEveryPixel : Prop :=
  ∀ (c : Word) (s : State),
    (∀ rest, decode (0x00000001#32 :: c :: rest) = .command (.clear c) rest) ∧
    ∃ t, exec (.clear c) s = .next t ∧ OnlyFb s t ∧ t.fb.length = s.cfg.screenH ∧
      (∀ row ∈ t.fb, row.length = s.cfg.screenW) ∧
      ∀ x y, x < s.cfg.screenW → y < s.cfg.screenH → pixel t x y = c

/-- R53, whole: the write sink at any integers. -/
def Obligations.PutPixelIsClipped : Prop :=
  ∀ (s : State) (x y : Int) (c : Word), Memory.wf s →
    OnlyFb s (putPixel s x y c) ∧ Memory.wf (putPixel s x y c) ∧
    (∀ i j : Nat, i < s.cfg.screenW → j < s.cfg.screenH →
      pixel (putPixel s x y c) i j = if (i : Int) = x ∧ (j : Int) = y then c else pixel s i j) ∧
    (¬ (0 ≤ x ∧ x < s.cfg.screenW ∧ 0 ≤ y ∧ y < s.cfg.screenH) → putPixel s x y c = s)

/-- R55: the signed coordinates, one pixel written or none, the command completing in every case. -/
def Obligations.SetPixelWritesOnePixel : Prop :=
  ∀ (x y c : Word) (s : State), Memory.wf s →
    (∀ rest, decode (0x00000002#32 :: x :: y :: c :: rest) = .command (.setPixel x y c) rest) ∧
    ∃ t, exec (.setPixel x y c) s = .next t ∧ OnlyFb s t ∧ Memory.wf t ∧
      ∀ i j : Nat, i < s.cfg.screenW → j < s.cfg.screenH →
        pixel t i j = if (i : Int) = x.toInt ∧ (j : Int) = y.toInt then c else pixel s i j

/-- R56 with the layout of R32: every display word, in either row order; a second `PRESENT` changes nothing. -/
def Obligations.PresentCopiesEveryPixel : Prop :=
  ∀ s : State, Memory.wf s →
    (∀ rest, decode (0x00000003#32 :: rest) = .command .present rest) ∧
    ∃ t, exec .present s = .next t ∧ OnlyDisplay s t ∧ t.display.length = s.cfg.screenW * s.cfg.screenH ∧
      (∀ x y, x < s.cfg.screenW → y < s.cfg.screenH →
        displayWord t (match s.cfg.rowOrder with
          | .topDown => s.cfg.screenW * y + x
          | .bottomUp => s.cfg.screenW * (s.cfg.screenH - 1 - y) + x) = pixel s x y) ∧
      exec .present t = .next t

/-! ### Font -/

/-- R58 with R57, whole: the index check, then the loops of clipped pixel writes. -/
def Obligations.DrawCharIsItsPixelLoop : Prop :=
  ∀ (g x y fg bg : Word) (s : State), Memory.wf s →
    (∀ rest, decode (0x00000010#32 :: g :: x :: y :: fg :: bg :: rest) = .command (.drawChar g x y fg bg) rest) ∧
    exec (.drawChar g x y fg bg) s = .next
      (if 256 ≤ g.toNat then Recorded s 0x10#8 1#8 2#8 g else loopDrawChar g.toNat x.toInt y.toInt fg bg s)

/-- R59, whole: the payload, the effective length, and character `i` drawn as `DRAWCHAR` draws it at `x + i`. -/
def Obligations.PrintDrawsEachCharacter : Prop :=
  ∀ (x y fg bg : Word) (str : List Byte) (n : Nat) (s : State), Memory.wf s → str.length ≤ 65535 → IsStrLen str n →
    (∀ ws rest, PayloadSpells ws str →
      decode (BitVec.ofNat 32 (0x11 + 65536 * str.length) :: x :: y :: fg :: bg :: (ws ++ rest))
        = .command (.print x y fg bg str) rest) ∧
    exec (.print x y fg bg str) s = .next (loopPrint n str x.toInt y.toInt fg bg s)

/-- R60, whole. -/
def Obligations.SetGlyphWritesEightRows : Prop :=
  ∀ (g a b : Word) (s : State), Memory.wf s →
    (∀ rest, decode (0x00000012#32 :: g :: a :: b :: rest) = .command (.setGlyph g a b) rest) ∧
    (256 ≤ g.toNat → exec (.setGlyph g a b) s = .next (Recorded s 0x12#8 1#8 2#8 g)) ∧
    (g.toNat < 256 → ∃ t, exec (.setGlyph g a b) s = .next t ∧ OnlyCharset s t ∧ Memory.wf t ∧
      (∀ r < 4, charRow t g.toNat r = a.extractLsb' (8 * r) 8) ∧
      (∀ r < 4, charRow t g.toNat (4 + r) = b.extractLsb' (8 * r) 8) ∧
      ∀ g' r, g' ≠ g.toNat → charRow t g' r = charRow s g' r)

/-- R61 with R40 and R29, for every source the port may meet; that the answer is `nextSource s` and
is then used up is the model's (log entry 7). -/
def Obligations.LoadCharsetReadsBlock : Prop :=
  ∀ s : State,
    (∀ rest, decode (0x00000013#32 :: rest) = .command .loadCharset rest) ∧
    (nextSource s = .unopenable → exec .loadCharset s = .next (Recorded (useSource s) 0x13#8 1#8 1#8 0#32)) ∧
    (nextSource s = .unreadable → exec .loadCharset s = .next (Recorded (useSource s) 0x13#8 2#8 1#8 0#32)) ∧
    ∀ b, nextSource s = .bytes b →
      (b.length < 2048 → exec .loadCharset s = .next (Recorded (useSource s) 0x13#8 2#8 1#8 0#32)) ∧
      (2048 ≤ b.length → ∃ t, exec .loadCharset s = .next t ∧ OnlyCharset (useSource s) t ∧ t.charset.length = 256 ∧
        (∀ g ∈ t.charset, g.length = 8) ∧
        ∀ g r, g < 256 → r < 8 → charRow t g r = b.getD (8 * g + r) 0#8)

/-- R62 with R40 and R29, for every sink the port may meet; that the answer is `nextSink s`, and
the log of what was delivered, are the model's (log entries 7, 8). -/
def Obligations.SaveCharsetWritesBlock : Prop :=
  ∀ s : State, Memory.wf s →
    (∀ rest, decode (0x00000014#32 :: rest) = .command .saveCharset rest) ∧
    (nextSink s = .accepts → ∃ b, exec .saveCharset s = .next { useSink s with sunk := s.sunk ++ [.block b] } ∧
      b.length = 2048 ∧ ∀ g r, g < 256 → r < 8 → b.getD (8 * g + r) 0#8 = charRow s g r) ∧
    (nextSink s = .unopenable → exec .saveCharset s = .next
      (Recorded { useSink s with sunk := s.sunk ++ [.unspecified] } 0x14#8 1#8 1#8 0#32)) ∧
    (nextSink s = .unwritable → exec .saveCharset s = .next
      (Recorded { useSink s with sunk := s.sunk ++ [.unspecified] } 0x14#8 3#8 1#8 0#32))

/-! ### Tile data -/

/-- R64, whole. -/
def Obligations.SetTileStoresCharacters : Prop :=
  ∀ (t : Word) (ch : List Byte) (s : State), Memory.wf s → ch.length = 64 →
    (∀ ws rest, PayloadSpells ws ch → decode (0x00000020#32 :: t :: (ws ++ rest)) = .command (.setTile t ch) rest) ∧
    (768 ≤ t.toNat → exec (.setTile t ch) s = .next (Recorded s 0x20#8 2#8 2#8 t)) ∧
    (t.toNat < 768 → ∀ i < 64, ch.getD i 0#8 ∉ [0x30#8, 0x31#8, 0x20#8] →
      (∀ j < i, ch.getD j 0#8 ∈ [0x30#8, 0x31#8, 0x20#8]) →
      exec (.setTile t ch) s = .next (Recorded s 0x20#8 1#8 3#8 (BitVec.ofNat 32 i))) ∧
    (t.toNat < 768 → (∀ i < 64, ch.getD i 0#8 ∈ [0x30#8, 0x31#8, 0x20#8]) →
      ∃ t', exec (.setTile t ch) s = .next t' ∧ OnlyTile s t' ∧ Memory.wf t' ∧
        (∀ i < 64, cell t' t.toNat i = if ch.getD i 0#8 = 0x30#8 then 0#32 else if ch.getD i 0#8 = 0x31#8 then 1#32
          else s.cfg.tMark) ∧
        ∀ u k, u ≠ t.toNat → cell t' u k = cell s u k)

/-- R65, whole. -/
def Obligations.ClearTileZeroesCells : Prop :=
  ∀ (t : Word) (s : State), Memory.wf s →
    (∀ rest, decode (0x00000021#32 :: t :: rest) = .command (.clearTile t) rest) ∧
    (768 ≤ t.toNat → exec (.clearTile t) s = .next (Recorded s 0x21#8 2#8 2#8 t)) ∧
    (t.toNat < 768 → ∃ t', exec (.clearTile t) s = .next t' ∧ OnlyTile s t' ∧ Memory.wf t' ∧
      (∀ k < 64, cell t' t.toNat k = 0#32) ∧ ∀ u k, u ≠ t.toNat → cell t' u k = cell s u k)

/-- R66, whole. -/
def Obligations.InvertTileSwapsOnAndOff : Prop :=
  ∀ (t : Word) (s : State), Memory.wf s →
    (∀ rest, decode (0x00000022#32 :: t :: rest) = .command (.invertTile t) rest) ∧
    (768 ≤ t.toNat → exec (.invertTile t) s = .next (Recorded s 0x22#8 2#8 2#8 t)) ∧
    (t.toNat < 768 → ∀ k, FirstBad s t.toNat k →
      exec (.invertTile t) s = .next (Recorded s 0x22#8 2#8 3#8 (BitVec.ofNat 32 (64 * t.toNat + k)))) ∧
    (t.toNat < 768 → BicolorTile s t.toNat → ∃ t', exec (.invertTile t) s = .next t' ∧ OnlyTile s t' ∧ Memory.wf t' ∧
      (∀ k < 64, cell t' t.toNat k = if cell s t.toNat k = 0#32 then 1#32 else if cell s t.toNat k = 1#32 then 0#32
        else s.cfg.tMark) ∧
      ∀ u k, u ≠ t.toNat → cell t' u k = cell s u k)

/-- Inverting a bicolor tile twice gives the whole state back; the constraint of R4 on `T_MARK` is a premise. -/
def Obligations.InvertTwiceRestoresState : Prop :=
  ∀ (t : Word) (s : State), s.cfg.wf → Memory.wf s → t.toNat < 768 → BicolorTile s t.toNat →
    ∃ u, exec (.invertTile t) s = .next u ∧ exec (.invertTile t) u = .next s

/-- R67, whole. -/
def Obligations.SetTileCellWritesOneCell : Prop :=
  ∀ (t k v : Word) (s : State), Memory.wf s →
    (∀ rest, decode (0x00000023#32 :: t :: k :: v :: rest) = .command (.setTileCell t k v) rest) ∧
    (768 ≤ t.toNat → exec (.setTileCell t k v) s = .next (Recorded s 0x23#8 2#8 2#8 t)) ∧
    (t.toNat < 768 → 64 ≤ k.toNat → exec (.setTileCell t k v) s = .next (Recorded s 0x23#8 4#8 2#8 k)) ∧
    (t.toNat < 768 → k.toNat < 64 → ∃ t', exec (.setTileCell t k v) s = .next t' ∧ OnlyTile s t' ∧ Memory.wf t' ∧
      ∀ u j, cell t' u j = if u = t.toNat ∧ j = k.toNat then v else cell s u j)

/-- R68, whole. -/
def Obligations.GetTileCellReadsCell : Prop :=
  ∀ (t k : Word) (s : State),
    (∀ rest, decode (0x00000024#32 :: t :: k :: rest) = .command (.getTileCell t k) rest) ∧
    exec (.getTileCell t k) s = .next
      (if 768 ≤ t.toNat then Recorded s 0x24#8 2#8 2#8 t
      else if 64 ≤ k.toNat then Recorded s 0x24#8 4#8 2#8 k
      else { s with result := cell s t.toNat k.toNat })

/-- R69: the default table, all of it, the same every time. -/
def Obligations.GenTilesetWritesDefault : Prop :=
  ∀ s : State,
    (∀ rest, decode (0x00000028#32 :: rest) = .command .genTileset rest) ∧
    ∃ t', exec .genTileset s = .next t' ∧ OnlyTile s t' ∧
      ∀ t k, t < 768 → k < 64 → cell t' t k = (s.cfg.defaultTileset.getD t []).getD k 0#32

/-- R70 with R40, R30 and R28, for every source the port may meet; that the answer is `nextSource s` and
is then used up is the model's (log entry 7). -/
def Obligations.LoadTilesetReadsBlock : Prop :=
  ∀ s : State,
    (∀ rest, decode (0x00000029#32 :: rest) = .command .loadTileset rest) ∧
    (nextSource s = .unopenable → exec .loadTileset s = .next (Recorded (useSource s) 0x29#8 1#8 1#8 0#32)) ∧
    (nextSource s = .unreadable → exec .loadTileset s = .next (Recorded (useSource s) 0x29#8 2#8 1#8 0#32)) ∧
    ∀ b, nextSource s = .bytes b →
      (b.length < 196608 → exec .loadTileset s = .next (Recorded (useSource s) 0x29#8 2#8 1#8 0#32)) ∧
      (196608 ≤ b.length → ∃ t', exec .loadTileset s = .next t' ∧ OnlyTile (useSource s) t' ∧ t'.tile.length = 768 ∧
        (∀ row ∈ t'.tile, row.length = 64) ∧
        ∀ t k, t < 768 → k < 64 → cell t' t k =
          b.getD (4 * (64 * t + k) + 3) 0#8 ++ b.getD (4 * (64 * t + k) + 2) 0#8 ++
            b.getD (4 * (64 * t + k) + 1) 0#8 ++ b.getD (4 * (64 * t + k)) 0#8)

/-- R71 with R40, R30 and R28, for every sink the port may meet; that the answer is `nextSink s`, and
the log of what was delivered, are the model's (log entries 7, 8). -/
def Obligations.SaveTilesetWritesBlock : Prop :=
  ∀ s : State, Memory.wf s →
    (∀ rest, decode (0x0000002A#32 :: rest) = .command .saveTileset rest) ∧
    (nextSink s = .accepts → ∃ b, exec .saveTileset s = .next { useSink s with sunk := s.sunk ++ [.block b] } ∧
      b.length = 196608 ∧ ∀ t k j, t < 768 → k < 64 → j < 4 →
        b.getD (4 * (64 * t + k) + j) 0#8 = (cell s t k).extractLsb' (8 * j) 8) ∧
    (nextSink s = .unopenable → exec .saveTileset s = .next
      (Recorded { useSink s with sunk := s.sunk ++ [.unspecified] } 0x2A#8 1#8 1#8 0#32)) ∧
    (nextSink s = .unwritable → exec .saveTileset s = .next
      (Recorded { useSink s with sunk := s.sunk ++ [.unspecified] } 0x2A#8 3#8 1#8 0#32))

/-! ### Tile drawing -/

/-- The origin of an aligned tile (R72) is the multiple of the size at or below the coordinate, and the drawn width is
the size without its remainder by 8. -/
def Obligations.AlignedOriginIsGridCell : Prop :=
  ∀ x w : Int, 8 ≤ w →
    (∃ q, origin true x w = w * q) ∧ origin true x w ≤ x ∧ x < origin true x w + w ∧ origin false x w = x ∧
      8 * blockSize w ≤ w ∧ w < 8 * blockSize w + 8

/-- R74 with R72 and R73, whole: the checks in order, the empty size, then the loops of clipped pixel writes. -/
def Obligations.DrawTileIsItsPixelLoop : Prop :=
  ∀ (align : Bool) (t fg bg x y w h : Word) (s : State), Memory.wf s →
    (∀ rest, decode ((if align then 0x00000125#32 else 0x00000025#32) :: t :: fg :: bg :: x :: y :: w :: h :: rest)
      = .command (.drawTile align t fg bg x y w h) rest) ∧
    (768 ≤ t.toNat → exec (.drawTile align t fg bg x y w h) s = .next (Recorded s 0x25#8 2#8 2#8 t)) ∧
    (t.toNat < 768 → ∀ k, FirstBad s t.toNat k → exec (.drawTile align t fg bg x y w h) s
      = .next (Recorded s 0x25#8 2#8 3#8 (BitVec.ofNat 32 (64 * t.toNat + k)))) ∧
    (t.toNat < 768 → BicolorTile s t.toNat → exec (.drawTile align t fg bg x y w h) s = .next
      (if w.toInt.tdiv 8 ≤ 0 ∨ h.toInt.tdiv 8 ≤ 0 then s
      else loopDrawBi t.toNat fg bg (OriginOf align x.toInt w.toInt) (OriginOf align y.toInt h.toInt)
        (w.toInt.tdiv 8).toNat (h.toInt.tdiv 8).toNat s))

/-- R75 with R72, whole: the checks in order, the empty size, then the loops of clipped pixel writes. -/
def Obligations.DrawTileMcIsItsPixelLoop : Prop :=
  ∀ (align indexed : Bool) (t x y w h : Word) (s : State), Memory.wf s →
    (∀ rest, decode (((if align then 0x00000126#32 else 0x00000026#32) ||| (if indexed then 0x200#32 else 0#32))
      :: t :: x :: y :: w :: h :: rest) = .command (.drawTileMc align indexed t x y w h) rest) ∧
    (768 ≤ t.toNat → exec (.drawTileMc align indexed t x y w h) s = .next (Recorded s 0x26#8 2#8 2#8 t)) ∧
    (t.toNat < 768 → indexed = true → ∀ k < 64, 256 ≤ (cell s t.toNat k).toNat →
      (∀ j < k, (cell s t.toNat j).toNat < 256) → exec (.drawTileMc align indexed t x y w h) s
        = .next (Recorded s 0x26#8 3#8 2#8 (cell s t.toNat k))) ∧
    (t.toNat < 768 → (indexed = true → ∀ k < 64, (cell s t.toNat k).toNat < 256) →
      exec (.drawTileMc align indexed t x y w h) s = .next
        (if w.toInt.tdiv 8 ≤ 0 ∨ h.toInt.tdiv 8 ≤ 0 then s
        else loopDrawMc indexed t.toNat (OriginOf align x.toInt w.toInt) (OriginOf align y.toInt h.toInt)
          (w.toInt.tdiv 8).toNat (h.toInt.tdiv 8).toNat s))

/-- R76 with R72 and R73, whole: every character checked before any is drawn, the wrap test before each tile. -/
def Obligations.DrawStringIsItsPixelLoop : Prop :=
  ∀ (x y fg bg w h : Word) (str : List Byte) (n : Nat) (s : State), Memory.wf s → str.length ≤ 65535 →
    IsStrLen str n →
    (∀ ws rest, PayloadSpells ws str →
      decode (BitVec.ofNat 32 (0x27 + 65536 * str.length) :: x :: y :: fg :: bg :: w :: h :: (ws ++ rest))
        = .command (.drawString x y fg bg w h str) rest) ∧
    (∀ i k, i < n → (∀ j < i, BicolorTile s (str.getD j 0#8).toNat) → FirstBad s (str.getD i 0#8).toNat k →
      exec (.drawString x y fg bg w h str) s
        = .next (Recorded s 0x27#8 2#8 3#8 (BitVec.ofNat 32 (64 * (str.getD i 0#8).toNat + k)))) ∧
    ((∀ i < n, BicolorTile s (str.getD i 0#8).toNat) → exec (.drawString x y fg bg w h str) s = .next
      (if w.toInt.tdiv 8 ≤ 0 ∨ h.toInt.tdiv 8 ≤ 0 then s
      else loopDrawString fg bg w.toInt h.toInt (w.toInt.tdiv 8).toNat (h.toInt.tdiv 8).toNat x.toInt y.toInt
        (str.take n) s))

/-! ### Palette -/

/-- R78, whole: the reserved byte before the index. -/
def Obligations.SetColorRgbWritesEntry : Prop :=
  ∀ (i rgb : Word) (s : State), Memory.wf s →
    (∀ rest, decode (0x00000030#32 :: i :: rgb :: rest) = .command (.setColorRgb i rgb) rest) ∧
    (rgb.extractLsb' 24 8 ≠ 0#8 → exec (.setColorRgb i rgb) s = .next (Recorded s 0x30#8 3#8 4#8 rgb)) ∧
    (rgb.extractLsb' 24 8 = 0#8 → 256 ≤ i.toNat →
      exec (.setColorRgb i rgb) s = .next (Recorded s 0x30#8 3#8 2#8 i)) ∧
    (rgb.extractLsb' 24 8 = 0#8 → i.toNat < 256 → ∃ t, exec (.setColorRgb i rgb) s = .next t ∧ OnlyPal s t ∧
      Memory.wf t ∧ ∀ j, color t j = if j = i.toNat then rgb else color s j)

/-- R79, whole. -/
def Obligations.SetColorRawWritesEntry : Prop :=
  ∀ (i v : Word) (s : State), Memory.wf s →
    (∀ rest, decode (0x00000031#32 :: i :: v :: rest) = .command (.setColorRaw i v) rest) ∧
    (256 ≤ i.toNat → exec (.setColorRaw i v) s = .next (Recorded s 0x31#8 3#8 2#8 i)) ∧
    (i.toNat < 256 → ∃ t, exec (.setColorRaw i v) s = .next t ∧ OnlyPal s t ∧ Memory.wf t ∧
      ∀ j, color t j = if j = i.toNat then v else color s j)

/-- R80, whole. -/
def Obligations.GetColorReadsEntry : Prop :=
  ∀ (i : Word) (s : State),
    (∀ rest, decode (0x00000032#32 :: i :: rest) = .command (.getColor i) rest) ∧
    exec (.getColor i) s = .next
      (if 256 ≤ i.toNat then Recorded s 0x32#8 3#8 2#8 i else { s with result := color s i.toNat })

/-- R81: the default table, the same every time, so that `GETCOLOR 0` after it reads one constant. -/
def Obligations.GenPaletteWritesDefault : Prop :=
  ∀ s : State,
    (∀ rest, decode (0x00000033#32 :: rest) = .command .genPalette rest) ∧
    ∃ t, exec .genPalette s = .next t ∧ OnlyPal s t ∧
      (∀ i < 256, color t i = s.cfg.defaultPalette.getD i 0#32) ∧
      exec (.getColor 0#32) t = .next { t with result := s.cfg.defaultPalette.getD 0 0#32 }

/-- R82 with R40, R31 and R28, for every source the port may meet; that the answer is `nextSource s` and
is then used up is the model's (log entry 7). -/
def Obligations.LoadPaletteReadsBlock : Prop :=
  ∀ s : State,
    (∀ rest, decode (0x00000034#32 :: rest) = .command .loadPalette rest) ∧
    (nextSource s = .unopenable → exec .loadPalette s = .next (Recorded (useSource s) 0x34#8 1#8 1#8 0#32)) ∧
    (nextSource s = .unreadable → exec .loadPalette s = .next (Recorded (useSource s) 0x34#8 2#8 1#8 0#32)) ∧
    ∀ b, nextSource s = .bytes b →
      (b.length < 1024 → exec .loadPalette s = .next (Recorded (useSource s) 0x34#8 2#8 1#8 0#32)) ∧
      (1024 ≤ b.length → ∃ t, exec .loadPalette s = .next t ∧ OnlyPal (useSource s) t ∧ t.pal.length = 256 ∧
        ∀ i < 256, color t i =
          b.getD (4 * i + 3) 0#8 ++ b.getD (4 * i + 2) 0#8 ++ b.getD (4 * i + 1) 0#8 ++ b.getD (4 * i) 0#8)

/-- R83 with R40, R31 and R28, for every sink the port may meet; that the answer is `nextSink s`, and
the log of what was delivered, are the model's (log entries 7, 8). -/
def Obligations.SavePaletteWritesBlock : Prop :=
  ∀ s : State, Memory.wf s →
    (∀ rest, decode (0x00000035#32 :: rest) = .command .savePalette rest) ∧
    (nextSink s = .accepts → ∃ b, exec .savePalette s = .next { useSink s with sunk := s.sunk ++ [.block b] } ∧
      b.length = 1024 ∧ ∀ i j, i < 256 → j < 4 → b.getD (4 * i + j) 0#8 = (color s i).extractLsb' (8 * j) 8) ∧
    (nextSink s = .unopenable → exec .savePalette s = .next
      (Recorded { useSink s with sunk := s.sunk ++ [.unspecified] } 0x35#8 1#8 1#8 0#32)) ∧
    (nextSink s = .unwritable → exec .savePalette s = .next
      (Recorded { useSink s with sunk := s.sunk ++ [.unspecified] } 0x35#8 3#8 1#8 0#32))

/-! ### The whole machine -/

/-- A block saved from one state and loaded, longer source or not, into any state gives that state the saved table. -/
def Obligations.SavedTablesLoadBack : Prop :=
  ∀ (s u t t' : State) (b more : List Byte), Memory.wf s → nextSink s = .accepts → nextSource u = .bytes (b ++ more) →
    (exec .saveCharset s = .next t → t.sunk = s.sunk ++ [.block b] → exec .loadCharset u = .next t' →
      t'.charset = s.charset) ∧
    (exec .saveTileset s = .next t → t.sunk = s.sunk ++ [.block b] → exec .loadTileset u = .next t' →
      t'.tile = s.tile) ∧
    (exec .savePalette s = .next t → t.sunk = s.sunk ++ [.block b] → exec .loadPalette u = .next t' →
      t'.pal = s.pal)

/-- A bound source or sink is the one the next `LOAD*` or `SAVE*` meets, and it alone is used up; this
is the model's bookkeeping of the host's bindings (log entry 7). -/
def Obligations.BoundPortIsUsedInOrder : Prop :=
  ∀ (s : State) (src : Source) (srcs : List Source) (snk : Sink) (snks : List Sink),
    (s.sources = src :: srcs → nextSource s = src ∧ useSource s = { s with sources := srcs }) ∧
    (s.sinks = snk :: snks → nextSink s = snk ∧ useSink s = { s with sinks := snks })

/-- `DISPLAY` seen as bytes (R28, R32): four bytes a word, least significant first. -/
def Obligations.DisplayBytesAreLittleEndian : Prop :=
  ∀ s : State, (displayBytes s).length = 4 * s.display.length ∧
    ∀ a j, a < s.display.length → j < 4 →
      (displayBytes s).getD (4 * a + j) 0#8 = (displayWord s a).extractLsb' (8 * j) 8

/-- The register port (R15, R16): seven registers, 0 elsewhere, writes without effect, and the configuration registers
the same after every step. That a size of 2^32 or more reads modulo 2^32 in `CFG_W` or `CFG_H` is the model's choice
(log entry 14, DEDUCED). -/
def Obligations.RegisterPortReadsSeven : Prop :=
  ∀ s : State,
    readReg s 0 = BitVec.ofNat 32 s.cfg.screenW ∧ readReg s 1 = BitVec.ofNat 32 s.cfg.screenH ∧
    readReg s 2 = (if s.cfg.rowOrder = .bottomUp then 1#32 else 0#32) ∧ readReg s 3 = s.fstat ∧
    readReg s 4 = s.fcode ∧ readReg s 5 = s.finfo ∧ readReg s 6 = s.result ∧ (∀ n, 6 < n → readReg s n = 0#32) ∧
    (∀ n v, writeReg s n v = s) ∧
    ∀ t, step s = .next t → ∀ n < 3, readReg t n = readReg s n

/-- Which command may change which piece of the state; none changes the parameters or the rest of the stream.
The port fields are the model's (log entries 7, 8). -/
def Obligations.EachTableHasItsWriters : Prop :=
  ∀ (i : Instr) (s t : State), exec i s = .next t →
    t.cfg = s.cfg ∧ t.stream = s.stream ∧
    (t.charset = s.charset ∨ i.opcode ∈ [.setGlyph, .loadCharset]) ∧
    (t.tile = s.tile ∨ i.opcode ∈ [.setTile, .clearTile, .invertTile, .setTileCell, .genTileset, .loadTileset]) ∧
    (t.pal = s.pal ∨ i.opcode ∈ [.setColorRgb, .setColorRaw, .genPalette, .loadPalette]) ∧
    (t.fb = s.fb ∨
      i.opcode ∈ [.clear, .setPixel, .drawChar, .print, .drawTile, .drawTileMc, .drawString]) ∧
    (t.display = s.display ∨ i.opcode = .present) ∧
    (t.result = s.result ∨ i.opcode ∈ [.getTileCell, .getColor]) ∧
    (t.sources = s.sources ∨ i.opcode ∈ [.loadCharset, .loadTileset, .loadPalette]) ∧
    (t.sinks = s.sinks ∧ t.sunk = s.sunk ∨ i.opcode ∈ [.saveCharset, .saveTileset, .savePalette])

/-- What a command does to everything but `FB` and `DISPLAY` does not depend on `FB` or `DISPLAY`. -/
def Obligations.FramebufferDoesNotFlowBack : Prop :=
  ∀ (i : Instr) (s t : State) (fb : List (List Word)) (display : List Word), exec i s = .next t →
    ∃ t', exec i { s with fb := fb, display := display } = .next t' ∧
      t' = { t with fb := t'.fb, display := t'.display }

/-- Every instruction, and every step, answers a next state: no fault is fatal and nothing is refused. -/
def Obligations.EveryStepAnswersNext : Prop :=
  (∀ (i : Instr) (s : State), ∃ t, exec i s = .next t) ∧ ∀ s : State, ∃ t, step s = .next t

/-- After any reset (R25, R95): zero tables, zero registers, hard-wired configuration registers, an empty stream, and
`FB` and `DISPLAY` of their shapes with contents of which nothing is said. That a read
outside a table gives 0 is the model's choice (log entry 10, DESIGN CHOICE), and that a size of 2^32 or more reads
modulo 2^32 in `CFG_W` or `CFG_H` (log entry 14, DEDUCED). -/
def Obligations.ResetLeavesSpecifiedValues : Prop :=
  (∃ c : Config, State.reset = State.resetOf c 0) ∧
  ∀ s : State, (∃ c d, s = State.resetOf c d) ∨ (∃ u, s = applyReset u) →
    Memory.wf s ∧ (∀ g r, charRow s g r = 0#8) ∧ (∀ t k, cell s t k = 0#32) ∧ (∀ i, color s i = 0#32) ∧
    s.fstat = 0#32 ∧ s.fcode = 0#32 ∧ s.finfo = 0#32 ∧ s.result = 0#32 ∧ s.stream = [] ∧
    readReg s 0 = BitVec.ofNat 32 s.cfg.screenW ∧ readReg s 1 = BitVec.ofNat 32 s.cfg.screenH ∧
    readReg s 2 = (if s.cfg.rowOrder = .bottomUp then 1#32 else 0#32)

/-- The invariant holds after reset. -/
def Obligations.ResetMeetsInvariant : Prop := StateInv State.reset

/-- Every step keeps the invariant: parameters as R4 constrains them, tables of the shapes of R9, reserved bits of the
fault registers zero. -/
def Obligations.StepKeepsInvariant : Prop :=
  ∀ s t : State, StateInv s → step s = .next t → StateInv t

/-- Text of R50 assembles to the words the rules' examples give. -/
def Obligations.AssemblerExamplesGiveSpecWords : Prop :=
  (assemble "CLEAR 0x000000").map encode = some [0x00000001#32, 0x00000000#32] ∧
  (assemble "SETPIXEL 3, -1, 0xFF0000").map encode
    = some [0x00000002#32, 0x00000003#32, 0xFFFFFFFF#32, 0x00FF0000#32] ∧
  (assemble "SETGLYPH 65, 0x18, 0x3C, 0x66, 0x66, 0x7E, 0x66, 0x66, 0x00").map encode
    = some [0x00000012#32, 0x00000041#32, 0x66663C18#32, 0x0066667E#32] ∧
  (assemble "PRINT 0, 0, 0xFFFFFF, 0x000000, \"HI\"").map encode
    = some [0x00020011#32, 0x00000000#32, 0x00000000#32, 0x00FFFFFF#32, 0x00000000#32, 0x00004948#32] ∧
  (assemble "DRAWTILEMC.INDEXED 2, 0, 0, 8, 8").map encode
    = some [0x00000226#32, 0x00000002#32, 0x00000000#32, 0x00000000#32, 0x00000008#32, 0x00000008#32] ∧
  (assemble "SETCOLORRGB 1, 255, 0, 0").map encode = some [0x00000030#32, 0x00000001#32, 0x00FF0000#32]
end

