-- ==== Sys2Proof/Laws/Bytes.lean ====
section
/-! SUPPORT. Bytes and words, and the fields of a header (20_memory.md R27, R28; 30_encoding.md R42). -/

namespace Sys2Proof.Laws

theorem getLsbD_joinBytes (b0 b1 b2 b3 : Byte) (i : Nat) : (joinBytes b0 b1 b2 b3).getLsbD i =
    if i < 8 then b0.getLsbD i else if i < 16 then b1.getLsbD (i - 8) else if i < 24 then b2.getLsbD (i - 16)
    else b3.getLsbD (i - 24) := by
  change BitVec.getLsbD (w := 8 + 8 + 8 + 8) (b3 ++ b2 ++ b1 ++ b0) i = _
  simp only [BitVec.getLsbD_append]
  split_ifs <;> (try omega) <;> simp [Nat.sub_sub]

theorem getLsbD_wordByte (v : Word) (k i : Nat) :
    (wordByte v k).getLsbD i = (decide (i < 8) && v.getLsbD (8 * k + i)) := by
  simp [wordByte]

@[simp] theorem wordByte_joinBytes_zero (b0 b1 b2 b3 : Byte) : wordByte (joinBytes b0 b1 b2 b3) 0 = b0 := by
  apply BitVec.eq_of_getLsbD_eq
  intro i hi
  rw [getLsbD_wordByte, getLsbD_joinBytes, if_pos (by omega)]
  simp [hi]

@[simp] theorem wordByte_joinBytes_one (b0 b1 b2 b3 : Byte) : wordByte (joinBytes b0 b1 b2 b3) 1 = b1 := by
  apply BitVec.eq_of_getLsbD_eq
  intro i hi
  rw [getLsbD_wordByte, getLsbD_joinBytes, if_neg (by omega), if_pos (by omega)]
  simp [hi]

@[simp] theorem wordByte_joinBytes_two (b0 b1 b2 b3 : Byte) : wordByte (joinBytes b0 b1 b2 b3) 2 = b2 := by
  apply BitVec.eq_of_getLsbD_eq
  intro i hi
  rw [getLsbD_wordByte, getLsbD_joinBytes, if_neg (by omega), if_neg (by omega), if_pos (by omega)]
  simp [hi]

@[simp] theorem wordByte_joinBytes_three (b0 b1 b2 b3 : Byte) : wordByte (joinBytes b0 b1 b2 b3) 3 = b3 := by
  apply BitVec.eq_of_getLsbD_eq
  intro i hi
  rw [getLsbD_wordByte, getLsbD_joinBytes, if_neg (by omega), if_neg (by omega), if_neg (by omega)]
  simp [hi]

@[simp] theorem joinBytes_wordByte (v : Word) :
    joinBytes (wordByte v 0) (wordByte v 1) (wordByte v 2) (wordByte v 3) = v := by
  apply BitVec.eq_of_getLsbD_eq
  intro i hi
  simp only [getLsbD_joinBytes, getLsbD_wordByte]
  split_ifs with h0 h1 h2
  · simp [h0]
  · simp [show i - 8 < 8 by omega, show 8 + (i - 8) = i by omega]
  · simp [show i - 16 < 8 by omega, show 16 + (i - 16) = i by omega]
  · simp [show i - 24 < 8 by omega, show 24 + (i - 24) = i by omega]

@[simp] theorem unpackBytes_nil : unpackBytes [] = [] := rfl

@[simp] theorem unpackBytes_cons (v : Word) (ws : List Word) : unpackBytes (v :: ws) =
    wordByte v 0 :: wordByte v 1 :: wordByte v 2 :: wordByte v 3 :: unpackBytes ws := rfl

@[simp] theorem length_unpackBytes (ws : List Word) : (unpackBytes ws).length = 4 * ws.length := by
  induction ws with
  | nil => rfl
  | cons v ws ih => simp [ih]; omega

theorem unpackBytes_append (a b : List Word) : unpackBytes (a ++ b) = unpackBytes a ++ unpackBytes b := by
  simp [unpackBytes]

/-- Packing the bytes of words gives the words back. -/
@[simp] theorem packBytes_unpackBytes (ws : List Word) : packBytes (unpackBytes ws) = ws := by
  induction ws with
  | nil => rfl
  | cons v ws ih => simp [packBytes, ih]

@[simp] theorem length_packBytes (bs : List Byte) : (packBytes bs).length = payloadWords bs.length := by
  induction bs using packBytes.induct with
  | case1 | case2 | case3 | case4 => simp [packBytes, payloadWords]
  | case5 a b c d rest ih => simp [packBytes, ih, payloadWords]; omega

/-- Unpacking packed bytes gives them back, followed by padding (R44). -/
theorem take_unpackBytes_packBytes (bs : List Byte) : (unpackBytes (packBytes bs)).take bs.length = bs := by
  induction bs using packBytes.induct with
  | case1 | case2 | case3 | case4 => simp [packBytes]
  | case5 a b c d rest ih => simp [packBytes, ih]

/-- A whole number of words has no padding. -/
theorem unpackBytes_packBytes {bs : List Byte} (h : bs.length % 4 = 0) : unpackBytes (packBytes bs) = bs := by
  have hl : (unpackBytes (packBytes bs)).length = bs.length := by simp [payloadWords]; omega
  have ht := take_unpackBytes_packBytes bs
  rwa [← hl, List.take_length] at ht

theorem getLsbD_makeHeader (o : Opcode) (a x : Bool) (n i : Nat) : (makeHeader o a x n).getLsbD i =
    if i < 8 then o.code.getLsbD i else if i = 8 then a else if i = 9 then x else if i < 16 then false
    else (BitVec.ofNat 16 n).getLsbD (i - 16) := by
  change BitVec.getLsbD (w := 16 + 6 + 1 + 1 + 8)
    (BitVec.ofNat 16 n ++ 0#6 ++ BitVec.ofBool x ++ BitVec.ofBool a ++ o.code) i = _
  simp only [BitVec.getLsbD_append]
  split_ifs <;> (try omega) <;> (try subst i) <;> simp [Nat.sub_sub]

@[simp] theorem hdrOpc_makeHeader (o : Opcode) (a x : Bool) (n : Nat) : hdrOpc (makeHeader o a x n) = o.code := by
  apply BitVec.eq_of_getLsbD_eq
  intro i hi
  simp [hdrOpc, getLsbD_makeHeader, hi]

@[simp] theorem hdrAlign_makeHeader (o : Opcode) (a x : Bool) (n : Nat) : hdrAlign (makeHeader o a x n) = a := by
  simp [hdrAlign, getLsbD_makeHeader, -BitVec.getLsbD_eq_getElem]

@[simp] theorem hdrIndexed_makeHeader (o : Opcode) (a x : Bool) (n : Nat) : hdrIndexed (makeHeader o a x n) = x := by
  simp [hdrIndexed, getLsbD_makeHeader, -BitVec.getLsbD_eq_getElem]

@[simp] theorem hdrReserved_makeHeader (o : Opcode) (a x : Bool) (n : Nat) :
    hdrReserved (makeHeader o a x n) = 0#6 := by
  apply BitVec.eq_of_getLsbD_eq
  intro i hi
  simp only [hdrReserved, BitVec.getLsbD_extractLsb', getLsbD_makeHeader]
  rw [if_neg (by omega), if_neg (by omega), if_neg (by omega), if_pos (by omega)]
  simp

@[simp] theorem hdrCount_makeHeader (o : Opcode) (a x : Bool) (n : Nat) :
    hdrCount (makeHeader o a x n) = n % 65536 := by
  have h : (makeHeader o a x n).extractLsb' 16 16 = BitVec.ofNat 16 n := by
    apply BitVec.eq_of_getLsbD_eq
    intro i hi
    simp only [BitVec.getLsbD_extractLsb', getLsbD_makeHeader]
    rw [if_neg (by omega), if_neg (by omega), if_neg (by omega), if_neg (by omega)]
    simp [hi, show 16 + i - 16 = i by omega]
  simp [hdrCount, h]

@[simp] theorem ofByte_code (o : Opcode) : Opcode.ofByte o.code = some o := by cases o <;> rfl

theorem code_of_ofByte {b : Byte} {o : Opcode} (h : Opcode.ofByte b = some o) : o.code = b := by
  simpa using List.find?_some h

/-- A header made with legal flags reads as its operation. -/
theorem readHeader_makeHeader {o : Opcode} {a x : Bool} {n : Nat} (h : flagsLegal o (makeHeader o a x n) = true) :
    readHeader (makeHeader o a x n) = .ok o := by
  simp [readHeader, h]

end Sys2Proof.Laws
end

