-- ==== Sys2Proof/Laws/State.lean ====
section
/-! SUPPORT. One lemma per field per update, so that no proof unfolds a record update. -/

namespace Sys2Proof.Machine

section
variable (s : State) (v : List (List Byte))
@[simp] theorem State.setCharset_cfg : (s.setCharset v).cfg = s.cfg := rfl
@[simp] theorem State.setCharset_charset : (s.setCharset v).charset = v := rfl
@[simp] theorem State.setCharset_fb : (s.setCharset v).fb = s.fb := rfl
@[simp] theorem State.setCharset_tile : (s.setCharset v).tile = s.tile := rfl
@[simp] theorem State.setCharset_pal : (s.setCharset v).pal = s.pal := rfl
@[simp] theorem State.setCharset_display : (s.setCharset v).display = s.display := rfl
@[simp] theorem State.setCharset_fstat : (s.setCharset v).fstat = s.fstat := rfl
@[simp] theorem State.setCharset_fcode : (s.setCharset v).fcode = s.fcode := rfl
@[simp] theorem State.setCharset_finfo : (s.setCharset v).finfo = s.finfo := rfl
@[simp] theorem State.setCharset_result : (s.setCharset v).result = s.result := rfl
@[simp] theorem State.setCharset_stream : (s.setCharset v).stream = s.stream := rfl
@[simp] theorem State.setCharset_sources : (s.setCharset v).sources = s.sources := rfl
@[simp] theorem State.setCharset_sinks : (s.setCharset v).sinks = s.sinks := rfl
@[simp] theorem State.setCharset_sunk : (s.setCharset v).sunk = s.sunk := rfl
@[simp] theorem State.setCharset_draws : (s.setCharset v).draws = s.draws := rfl
end

section
variable (s : State) (v : List (List Word))
@[simp] theorem State.setFb_cfg : (s.setFb v).cfg = s.cfg := rfl
@[simp] theorem State.setFb_charset : (s.setFb v).charset = s.charset := rfl
@[simp] theorem State.setFb_fb : (s.setFb v).fb = v := rfl
@[simp] theorem State.setFb_tile : (s.setFb v).tile = s.tile := rfl
@[simp] theorem State.setFb_pal : (s.setFb v).pal = s.pal := rfl
@[simp] theorem State.setFb_display : (s.setFb v).display = s.display := rfl
@[simp] theorem State.setFb_fstat : (s.setFb v).fstat = s.fstat := rfl
@[simp] theorem State.setFb_fcode : (s.setFb v).fcode = s.fcode := rfl
@[simp] theorem State.setFb_finfo : (s.setFb v).finfo = s.finfo := rfl
@[simp] theorem State.setFb_result : (s.setFb v).result = s.result := rfl
@[simp] theorem State.setFb_stream : (s.setFb v).stream = s.stream := rfl
@[simp] theorem State.setFb_sources : (s.setFb v).sources = s.sources := rfl
@[simp] theorem State.setFb_sinks : (s.setFb v).sinks = s.sinks := rfl
@[simp] theorem State.setFb_sunk : (s.setFb v).sunk = s.sunk := rfl
@[simp] theorem State.setFb_draws : (s.setFb v).draws = s.draws := rfl
end

section
variable (s : State) (v : List (List Word))
@[simp] theorem State.setTile_cfg : (s.setTile v).cfg = s.cfg := rfl
@[simp] theorem State.setTile_charset : (s.setTile v).charset = s.charset := rfl
@[simp] theorem State.setTile_fb : (s.setTile v).fb = s.fb := rfl
@[simp] theorem State.setTile_tile : (s.setTile v).tile = v := rfl
@[simp] theorem State.setTile_pal : (s.setTile v).pal = s.pal := rfl
@[simp] theorem State.setTile_display : (s.setTile v).display = s.display := rfl
@[simp] theorem State.setTile_fstat : (s.setTile v).fstat = s.fstat := rfl
@[simp] theorem State.setTile_fcode : (s.setTile v).fcode = s.fcode := rfl
@[simp] theorem State.setTile_finfo : (s.setTile v).finfo = s.finfo := rfl
@[simp] theorem State.setTile_result : (s.setTile v).result = s.result := rfl
@[simp] theorem State.setTile_stream : (s.setTile v).stream = s.stream := rfl
@[simp] theorem State.setTile_sources : (s.setTile v).sources = s.sources := rfl
@[simp] theorem State.setTile_sinks : (s.setTile v).sinks = s.sinks := rfl
@[simp] theorem State.setTile_sunk : (s.setTile v).sunk = s.sunk := rfl
@[simp] theorem State.setTile_draws : (s.setTile v).draws = s.draws := rfl
end

section
variable (s : State) (v : List Word)
@[simp] theorem State.setPal_cfg : (s.setPal v).cfg = s.cfg := rfl
@[simp] theorem State.setPal_charset : (s.setPal v).charset = s.charset := rfl
@[simp] theorem State.setPal_fb : (s.setPal v).fb = s.fb := rfl
@[simp] theorem State.setPal_tile : (s.setPal v).tile = s.tile := rfl
@[simp] theorem State.setPal_pal : (s.setPal v).pal = v := rfl
@[simp] theorem State.setPal_display : (s.setPal v).display = s.display := rfl
@[simp] theorem State.setPal_fstat : (s.setPal v).fstat = s.fstat := rfl
@[simp] theorem State.setPal_fcode : (s.setPal v).fcode = s.fcode := rfl
@[simp] theorem State.setPal_finfo : (s.setPal v).finfo = s.finfo := rfl
@[simp] theorem State.setPal_result : (s.setPal v).result = s.result := rfl
@[simp] theorem State.setPal_stream : (s.setPal v).stream = s.stream := rfl
@[simp] theorem State.setPal_sources : (s.setPal v).sources = s.sources := rfl
@[simp] theorem State.setPal_sinks : (s.setPal v).sinks = s.sinks := rfl
@[simp] theorem State.setPal_sunk : (s.setPal v).sunk = s.sunk := rfl
@[simp] theorem State.setPal_draws : (s.setPal v).draws = s.draws := rfl
end

section
variable (s : State) (v : List Word)
@[simp] theorem State.setDisplay_cfg : (s.setDisplay v).cfg = s.cfg := rfl
@[simp] theorem State.setDisplay_charset : (s.setDisplay v).charset = s.charset := rfl
@[simp] theorem State.setDisplay_fb : (s.setDisplay v).fb = s.fb := rfl
@[simp] theorem State.setDisplay_tile : (s.setDisplay v).tile = s.tile := rfl
@[simp] theorem State.setDisplay_pal : (s.setDisplay v).pal = s.pal := rfl
@[simp] theorem State.setDisplay_display : (s.setDisplay v).display = v := rfl
@[simp] theorem State.setDisplay_fstat : (s.setDisplay v).fstat = s.fstat := rfl
@[simp] theorem State.setDisplay_fcode : (s.setDisplay v).fcode = s.fcode := rfl
@[simp] theorem State.setDisplay_finfo : (s.setDisplay v).finfo = s.finfo := rfl
@[simp] theorem State.setDisplay_result : (s.setDisplay v).result = s.result := rfl
@[simp] theorem State.setDisplay_stream : (s.setDisplay v).stream = s.stream := rfl
@[simp] theorem State.setDisplay_sources : (s.setDisplay v).sources = s.sources := rfl
@[simp] theorem State.setDisplay_sinks : (s.setDisplay v).sinks = s.sinks := rfl
@[simp] theorem State.setDisplay_sunk : (s.setDisplay v).sunk = s.sunk := rfl
@[simp] theorem State.setDisplay_draws : (s.setDisplay v).draws = s.draws := rfl
end

section
variable (s : State) (v : Word)
@[simp] theorem State.setResult_cfg : (s.setResult v).cfg = s.cfg := rfl
@[simp] theorem State.setResult_charset : (s.setResult v).charset = s.charset := rfl
@[simp] theorem State.setResult_fb : (s.setResult v).fb = s.fb := rfl
@[simp] theorem State.setResult_tile : (s.setResult v).tile = s.tile := rfl
@[simp] theorem State.setResult_pal : (s.setResult v).pal = s.pal := rfl
@[simp] theorem State.setResult_display : (s.setResult v).display = s.display := rfl
@[simp] theorem State.setResult_fstat : (s.setResult v).fstat = s.fstat := rfl
@[simp] theorem State.setResult_fcode : (s.setResult v).fcode = s.fcode := rfl
@[simp] theorem State.setResult_finfo : (s.setResult v).finfo = s.finfo := rfl
@[simp] theorem State.setResult_result : (s.setResult v).result = v := rfl
@[simp] theorem State.setResult_stream : (s.setResult v).stream = s.stream := rfl
@[simp] theorem State.setResult_sources : (s.setResult v).sources = s.sources := rfl
@[simp] theorem State.setResult_sinks : (s.setResult v).sinks = s.sinks := rfl
@[simp] theorem State.setResult_sunk : (s.setResult v).sunk = s.sunk := rfl
@[simp] theorem State.setResult_draws : (s.setResult v).draws = s.draws := rfl
end

section
variable (s : State) (a b c : Word)
@[simp] theorem State.setFaultRegs_cfg : (s.setFaultRegs a b c).cfg = s.cfg := rfl
@[simp] theorem State.setFaultRegs_charset : (s.setFaultRegs a b c).charset = s.charset := rfl
@[simp] theorem State.setFaultRegs_fb : (s.setFaultRegs a b c).fb = s.fb := rfl
@[simp] theorem State.setFaultRegs_tile : (s.setFaultRegs a b c).tile = s.tile := rfl
@[simp] theorem State.setFaultRegs_pal : (s.setFaultRegs a b c).pal = s.pal := rfl
@[simp] theorem State.setFaultRegs_display : (s.setFaultRegs a b c).display = s.display := rfl
@[simp] theorem State.setFaultRegs_fstat : (s.setFaultRegs a b c).fstat = a := rfl
@[simp] theorem State.setFaultRegs_fcode : (s.setFaultRegs a b c).fcode = b := rfl
@[simp] theorem State.setFaultRegs_finfo : (s.setFaultRegs a b c).finfo = c := rfl
@[simp] theorem State.setFaultRegs_result : (s.setFaultRegs a b c).result = s.result := rfl
@[simp] theorem State.setFaultRegs_stream : (s.setFaultRegs a b c).stream = s.stream := rfl
@[simp] theorem State.setFaultRegs_sources : (s.setFaultRegs a b c).sources = s.sources := rfl
@[simp] theorem State.setFaultRegs_sinks : (s.setFaultRegs a b c).sinks = s.sinks := rfl
@[simp] theorem State.setFaultRegs_sunk : (s.setFaultRegs a b c).sunk = s.sunk := rfl
@[simp] theorem State.setFaultRegs_draws : (s.setFaultRegs a b c).draws = s.draws := rfl
end

section
variable (s : State) (v : List Word)
@[simp] theorem State.setStream_cfg : (s.setStream v).cfg = s.cfg := rfl
@[simp] theorem State.setStream_charset : (s.setStream v).charset = s.charset := rfl
@[simp] theorem State.setStream_fb : (s.setStream v).fb = s.fb := rfl
@[simp] theorem State.setStream_tile : (s.setStream v).tile = s.tile := rfl
@[simp] theorem State.setStream_pal : (s.setStream v).pal = s.pal := rfl
@[simp] theorem State.setStream_display : (s.setStream v).display = s.display := rfl
@[simp] theorem State.setStream_fstat : (s.setStream v).fstat = s.fstat := rfl
@[simp] theorem State.setStream_fcode : (s.setStream v).fcode = s.fcode := rfl
@[simp] theorem State.setStream_finfo : (s.setStream v).finfo = s.finfo := rfl
@[simp] theorem State.setStream_result : (s.setStream v).result = s.result := rfl
@[simp] theorem State.setStream_stream : (s.setStream v).stream = v := rfl
@[simp] theorem State.setStream_sources : (s.setStream v).sources = s.sources := rfl
@[simp] theorem State.setStream_sinks : (s.setStream v).sinks = s.sinks := rfl
@[simp] theorem State.setStream_sunk : (s.setStream v).sunk = s.sunk := rfl
@[simp] theorem State.setStream_draws : (s.setStream v).draws = s.draws := rfl
end

section
variable (s : State) (v : List Source) (n : Nat)
@[simp] theorem State.setSources_cfg : (s.setSources v n).cfg = s.cfg := rfl
@[simp] theorem State.setSources_charset : (s.setSources v n).charset = s.charset := rfl
@[simp] theorem State.setSources_fb : (s.setSources v n).fb = s.fb := rfl
@[simp] theorem State.setSources_tile : (s.setSources v n).tile = s.tile := rfl
@[simp] theorem State.setSources_pal : (s.setSources v n).pal = s.pal := rfl
@[simp] theorem State.setSources_display : (s.setSources v n).display = s.display := rfl
@[simp] theorem State.setSources_fstat : (s.setSources v n).fstat = s.fstat := rfl
@[simp] theorem State.setSources_fcode : (s.setSources v n).fcode = s.fcode := rfl
@[simp] theorem State.setSources_finfo : (s.setSources v n).finfo = s.finfo := rfl
@[simp] theorem State.setSources_result : (s.setSources v n).result = s.result := rfl
@[simp] theorem State.setSources_stream : (s.setSources v n).stream = s.stream := rfl
@[simp] theorem State.setSources_sources : (s.setSources v n).sources = v := rfl
@[simp] theorem State.setSources_sinks : (s.setSources v n).sinks = s.sinks := rfl
@[simp] theorem State.setSources_sunk : (s.setSources v n).sunk = s.sunk := rfl
@[simp] theorem State.setSources_draws : (s.setSources v n).draws = n := rfl
end

section
variable (s : State) (v : List Sink) (n : Nat)
@[simp] theorem State.setSinks_cfg : (s.setSinks v n).cfg = s.cfg := rfl
@[simp] theorem State.setSinks_charset : (s.setSinks v n).charset = s.charset := rfl
@[simp] theorem State.setSinks_fb : (s.setSinks v n).fb = s.fb := rfl
@[simp] theorem State.setSinks_tile : (s.setSinks v n).tile = s.tile := rfl
@[simp] theorem State.setSinks_pal : (s.setSinks v n).pal = s.pal := rfl
@[simp] theorem State.setSinks_display : (s.setSinks v n).display = s.display := rfl
@[simp] theorem State.setSinks_fstat : (s.setSinks v n).fstat = s.fstat := rfl
@[simp] theorem State.setSinks_fcode : (s.setSinks v n).fcode = s.fcode := rfl
@[simp] theorem State.setSinks_finfo : (s.setSinks v n).finfo = s.finfo := rfl
@[simp] theorem State.setSinks_result : (s.setSinks v n).result = s.result := rfl
@[simp] theorem State.setSinks_stream : (s.setSinks v n).stream = s.stream := rfl
@[simp] theorem State.setSinks_sources : (s.setSinks v n).sources = s.sources := rfl
@[simp] theorem State.setSinks_sinks : (s.setSinks v n).sinks = v := rfl
@[simp] theorem State.setSinks_sunk : (s.setSinks v n).sunk = s.sunk := rfl
@[simp] theorem State.setSinks_draws : (s.setSinks v n).draws = n := rfl
end

section
variable (s : State) (v : List Delivered)
@[simp] theorem State.setSunk_cfg : (s.setSunk v).cfg = s.cfg := rfl
@[simp] theorem State.setSunk_charset : (s.setSunk v).charset = s.charset := rfl
@[simp] theorem State.setSunk_fb : (s.setSunk v).fb = s.fb := rfl
@[simp] theorem State.setSunk_tile : (s.setSunk v).tile = s.tile := rfl
@[simp] theorem State.setSunk_pal : (s.setSunk v).pal = s.pal := rfl
@[simp] theorem State.setSunk_display : (s.setSunk v).display = s.display := rfl
@[simp] theorem State.setSunk_fstat : (s.setSunk v).fstat = s.fstat := rfl
@[simp] theorem State.setSunk_fcode : (s.setSunk v).fcode = s.fcode := rfl
@[simp] theorem State.setSunk_finfo : (s.setSunk v).finfo = s.finfo := rfl
@[simp] theorem State.setSunk_result : (s.setSunk v).result = s.result := rfl
@[simp] theorem State.setSunk_stream : (s.setSunk v).stream = s.stream := rfl
@[simp] theorem State.setSunk_sources : (s.setSunk v).sources = s.sources := rfl
@[simp] theorem State.setSunk_sinks : (s.setSunk v).sinks = s.sinks := rfl
@[simp] theorem State.setSunk_sunk : (s.setSunk v).sunk = v := rfl
@[simp] theorem State.setSunk_draws : (s.setSunk v).draws = s.draws := rfl
end

/-! The named operations over those updates. -/

section
variable (s : State) (opc : Byte) (c : Condition)
@[simp] theorem recordFault_cfg : (recordFault s opc c).cfg = s.cfg := rfl
@[simp] theorem recordFault_charset : (recordFault s opc c).charset = s.charset := rfl
@[simp] theorem recordFault_fb : (recordFault s opc c).fb = s.fb := rfl
@[simp] theorem recordFault_tile : (recordFault s opc c).tile = s.tile := rfl
@[simp] theorem recordFault_pal : (recordFault s opc c).pal = s.pal := rfl
@[simp] theorem recordFault_display : (recordFault s opc c).display = s.display := rfl
@[simp] theorem recordFault_fstat : (recordFault s opc c).fstat = fstatWith s.fstat c := rfl
@[simp] theorem recordFault_fcode : (recordFault s opc c).fcode = fcodeOf opc c := rfl
@[simp] theorem recordFault_finfo : (recordFault s opc c).finfo = conditionInfo c := rfl
@[simp] theorem recordFault_result : (recordFault s opc c).result = s.result := rfl
@[simp] theorem recordFault_stream : (recordFault s opc c).stream = s.stream := rfl
@[simp] theorem recordFault_sources : (recordFault s opc c).sources = s.sources := rfl
@[simp] theorem recordFault_sinks : (recordFault s opc c).sinks = s.sinks := rfl
@[simp] theorem recordFault_sunk : (recordFault s opc c).sunk = s.sunk := rfl
@[simp] theorem recordFault_draws : (recordFault s opc c).draws = s.draws := rfl
end

section
variable (s : State) (o : Opcode) (c : Condition)
@[simp] theorem raise_cfg : (raise s o c).cfg = s.cfg := rfl
@[simp] theorem raise_charset : (raise s o c).charset = s.charset := rfl
@[simp] theorem raise_fb : (raise s o c).fb = s.fb := rfl
@[simp] theorem raise_tile : (raise s o c).tile = s.tile := rfl
@[simp] theorem raise_pal : (raise s o c).pal = s.pal := rfl
@[simp] theorem raise_display : (raise s o c).display = s.display := rfl
@[simp] theorem raise_fstat : (raise s o c).fstat = fstatWith s.fstat c := rfl
@[simp] theorem raise_fcode : (raise s o c).fcode = fcodeOf o.code c := rfl
@[simp] theorem raise_finfo : (raise s o c).finfo = conditionInfo c := rfl
@[simp] theorem raise_result : (raise s o c).result = s.result := rfl
@[simp] theorem raise_stream : (raise s o c).stream = s.stream := rfl
@[simp] theorem raise_sources : (raise s o c).sources = s.sources := rfl
@[simp] theorem raise_sinks : (raise s o c).sinks = s.sinks := rfl
@[simp] theorem raise_sunk : (raise s o c).sunk = s.sunk := rfl
@[simp] theorem raise_draws : (raise s o c).draws = s.draws := rfl
end

section
variable (s : State) (g : Nat) (rows : List Byte)
@[simp] theorem setGlyphRows_cfg : (setGlyphRows s g rows).cfg = s.cfg := rfl
@[simp] theorem setGlyphRows_charset : (setGlyphRows s g rows).charset = s.charset.set g rows := rfl
@[simp] theorem setGlyphRows_fb : (setGlyphRows s g rows).fb = s.fb := rfl
@[simp] theorem setGlyphRows_tile : (setGlyphRows s g rows).tile = s.tile := rfl
@[simp] theorem setGlyphRows_pal : (setGlyphRows s g rows).pal = s.pal := rfl
@[simp] theorem setGlyphRows_display : (setGlyphRows s g rows).display = s.display := rfl
@[simp] theorem setGlyphRows_fstat : (setGlyphRows s g rows).fstat = s.fstat := rfl
@[simp] theorem setGlyphRows_fcode : (setGlyphRows s g rows).fcode = s.fcode := rfl
@[simp] theorem setGlyphRows_finfo : (setGlyphRows s g rows).finfo = s.finfo := rfl
@[simp] theorem setGlyphRows_result : (setGlyphRows s g rows).result = s.result := rfl
@[simp] theorem setGlyphRows_stream : (setGlyphRows s g rows).stream = s.stream := rfl
@[simp] theorem setGlyphRows_sources : (setGlyphRows s g rows).sources = s.sources := rfl
@[simp] theorem setGlyphRows_sinks : (setGlyphRows s g rows).sinks = s.sinks := rfl
@[simp] theorem setGlyphRows_sunk : (setGlyphRows s g rows).sunk = s.sunk := rfl
@[simp] theorem setGlyphRows_draws : (setGlyphRows s g rows).draws = s.draws := rfl
end

section
variable (s : State) (t : Nat) (cells : List Word)
@[simp] theorem setTileCells_cfg : (setTileCells s t cells).cfg = s.cfg := rfl
@[simp] theorem setTileCells_charset : (setTileCells s t cells).charset = s.charset := rfl
@[simp] theorem setTileCells_fb : (setTileCells s t cells).fb = s.fb := rfl
@[simp] theorem setTileCells_tile : (setTileCells s t cells).tile = s.tile.set t cells := rfl
@[simp] theorem setTileCells_pal : (setTileCells s t cells).pal = s.pal := rfl
@[simp] theorem setTileCells_display : (setTileCells s t cells).display = s.display := rfl
@[simp] theorem setTileCells_fstat : (setTileCells s t cells).fstat = s.fstat := rfl
@[simp] theorem setTileCells_fcode : (setTileCells s t cells).fcode = s.fcode := rfl
@[simp] theorem setTileCells_finfo : (setTileCells s t cells).finfo = s.finfo := rfl
@[simp] theorem setTileCells_result : (setTileCells s t cells).result = s.result := rfl
@[simp] theorem setTileCells_stream : (setTileCells s t cells).stream = s.stream := rfl
@[simp] theorem setTileCells_sources : (setTileCells s t cells).sources = s.sources := rfl
@[simp] theorem setTileCells_sinks : (setTileCells s t cells).sinks = s.sinks := rfl
@[simp] theorem setTileCells_sunk : (setTileCells s t cells).sunk = s.sunk := rfl
@[simp] theorem setTileCells_draws : (setTileCells s t cells).draws = s.draws := rfl
end

section
variable (s : State) (t k : Nat) (v : Word)
@[simp] theorem setCell_cfg : (setCell s t k v).cfg = s.cfg := rfl
@[simp] theorem setCell_charset : (setCell s t k v).charset = s.charset := rfl
@[simp] theorem setCell_fb : (setCell s t k v).fb = s.fb := rfl
@[simp] theorem setCell_tile : (setCell s t k v).tile = s.tile.set t ((s.tile.getD t []).set k v) := rfl
@[simp] theorem setCell_pal : (setCell s t k v).pal = s.pal := rfl
@[simp] theorem setCell_display : (setCell s t k v).display = s.display := rfl
@[simp] theorem setCell_fstat : (setCell s t k v).fstat = s.fstat := rfl
@[simp] theorem setCell_fcode : (setCell s t k v).fcode = s.fcode := rfl
@[simp] theorem setCell_finfo : (setCell s t k v).finfo = s.finfo := rfl
@[simp] theorem setCell_result : (setCell s t k v).result = s.result := rfl
@[simp] theorem setCell_stream : (setCell s t k v).stream = s.stream := rfl
@[simp] theorem setCell_sources : (setCell s t k v).sources = s.sources := rfl
@[simp] theorem setCell_sinks : (setCell s t k v).sinks = s.sinks := rfl
@[simp] theorem setCell_sunk : (setCell s t k v).sunk = s.sunk := rfl
@[simp] theorem setCell_draws : (setCell s t k v).draws = s.draws := rfl
end

section
variable (s : State) (i : Nat) (v : Word)
@[simp] theorem setColor_cfg : (setColor s i v).cfg = s.cfg := rfl
@[simp] theorem setColor_charset : (setColor s i v).charset = s.charset := rfl
@[simp] theorem setColor_fb : (setColor s i v).fb = s.fb := rfl
@[simp] theorem setColor_tile : (setColor s i v).tile = s.tile := rfl
@[simp] theorem setColor_pal : (setColor s i v).pal = s.pal.set i v := rfl
@[simp] theorem setColor_display : (setColor s i v).display = s.display := rfl
@[simp] theorem setColor_fstat : (setColor s i v).fstat = s.fstat := rfl
@[simp] theorem setColor_fcode : (setColor s i v).fcode = s.fcode := rfl
@[simp] theorem setColor_finfo : (setColor s i v).finfo = s.finfo := rfl
@[simp] theorem setColor_result : (setColor s i v).result = s.result := rfl
@[simp] theorem setColor_stream : (setColor s i v).stream = s.stream := rfl
@[simp] theorem setColor_sources : (setColor s i v).sources = s.sources := rfl
@[simp] theorem setColor_sinks : (setColor s i v).sinks = s.sinks := rfl
@[simp] theorem setColor_sunk : (setColor s i v).sunk = s.sunk := rfl
@[simp] theorem setColor_draws : (setColor s i v).draws = s.draws := rfl
end

section
variable (s : State) (d : Delivered)
@[simp] theorem deliver_cfg : (deliver s d).cfg = s.cfg := rfl
@[simp] theorem deliver_charset : (deliver s d).charset = s.charset := rfl
@[simp] theorem deliver_fb : (deliver s d).fb = s.fb := rfl
@[simp] theorem deliver_tile : (deliver s d).tile = s.tile := rfl
@[simp] theorem deliver_pal : (deliver s d).pal = s.pal := rfl
@[simp] theorem deliver_display : (deliver s d).display = s.display := rfl
@[simp] theorem deliver_fstat : (deliver s d).fstat = s.fstat := rfl
@[simp] theorem deliver_fcode : (deliver s d).fcode = s.fcode := rfl
@[simp] theorem deliver_finfo : (deliver s d).finfo = s.finfo := rfl
@[simp] theorem deliver_result : (deliver s d).result = s.result := rfl
@[simp] theorem deliver_stream : (deliver s d).stream = s.stream := rfl
@[simp] theorem deliver_sources : (deliver s d).sources = s.sources := rfl
@[simp] theorem deliver_sinks : (deliver s d).sinks = s.sinks := rfl
@[simp] theorem deliver_sunk : (deliver s d).sunk = s.sunk ++ [d] := rfl
@[simp] theorem deliver_draws : (deliver s d).draws = s.draws := rfl
end

section
variable (s : State) (rest : List Word)
@[simp] theorem consume_cfg : (consume s rest).cfg = s.cfg := rfl
@[simp] theorem consume_charset : (consume s rest).charset = s.charset := rfl
@[simp] theorem consume_fb : (consume s rest).fb = s.fb := rfl
@[simp] theorem consume_tile : (consume s rest).tile = s.tile := rfl
@[simp] theorem consume_pal : (consume s rest).pal = s.pal := rfl
@[simp] theorem consume_display : (consume s rest).display = s.display := rfl
@[simp] theorem consume_fstat : (consume s rest).fstat = s.fstat := rfl
@[simp] theorem consume_fcode : (consume s rest).fcode = s.fcode := rfl
@[simp] theorem consume_finfo : (consume s rest).finfo = s.finfo := rfl
@[simp] theorem consume_result : (consume s rest).result = s.result := rfl
@[simp] theorem consume_stream : (consume s rest).stream = rest := rfl
@[simp] theorem consume_sources : (consume s rest).sources = s.sources := rfl
@[simp] theorem consume_sinks : (consume s rest).sinks = s.sinks := rfl
@[simp] theorem consume_sunk : (consume s rest).sunk = s.sunk := rfl
@[simp] theorem consume_draws : (consume s rest).draws = s.draws := rfl
end

/-! Using the port changes the bound sources or sinks and the counter of free values only. -/

section
variable (s : State)
theorem useSource_eq : useSource s = s.setSources s.sources.tail (if s.sources = [] then s.draws + 1 else s.draws) := by
  cases h : s.sources <;> simp [useSource, h]
theorem useSink_eq : useSink s = s.setSinks s.sinks.tail (if s.sinks = [] then s.draws + 1 else s.draws) := by
  cases h : s.sinks <;> simp [useSink, h]
@[simp] theorem useSource_cfg : (useSource s).cfg = s.cfg := by rw [useSource_eq]; rfl
@[simp] theorem useSource_charset : (useSource s).charset = s.charset := by rw [useSource_eq]; rfl
@[simp] theorem useSource_fb : (useSource s).fb = s.fb := by rw [useSource_eq]; rfl
@[simp] theorem useSource_tile : (useSource s).tile = s.tile := by rw [useSource_eq]; rfl
@[simp] theorem useSource_pal : (useSource s).pal = s.pal := by rw [useSource_eq]; rfl
@[simp] theorem useSource_display : (useSource s).display = s.display := by rw [useSource_eq]; rfl
@[simp] theorem useSource_fstat : (useSource s).fstat = s.fstat := by rw [useSource_eq]; rfl
@[simp] theorem useSource_fcode : (useSource s).fcode = s.fcode := by rw [useSource_eq]; rfl
@[simp] theorem useSource_finfo : (useSource s).finfo = s.finfo := by rw [useSource_eq]; rfl
@[simp] theorem useSource_result : (useSource s).result = s.result := by rw [useSource_eq]; rfl
@[simp] theorem useSource_stream : (useSource s).stream = s.stream := by rw [useSource_eq]; rfl
@[simp] theorem useSource_sinks : (useSource s).sinks = s.sinks := by rw [useSource_eq]; rfl
@[simp] theorem useSource_sunk : (useSource s).sunk = s.sunk := by rw [useSource_eq]; rfl
@[simp] theorem useSource_sources : (useSource s).sources = s.sources.tail := by rw [useSource_eq]; rfl
theorem useSource_draws : (useSource s).draws = if s.sources = [] then s.draws + 1 else s.draws := by rw [useSource_eq]; rfl
@[simp] theorem useSink_cfg : (useSink s).cfg = s.cfg := by rw [useSink_eq]; rfl
@[simp] theorem useSink_charset : (useSink s).charset = s.charset := by rw [useSink_eq]; rfl
@[simp] theorem useSink_fb : (useSink s).fb = s.fb := by rw [useSink_eq]; rfl
@[simp] theorem useSink_tile : (useSink s).tile = s.tile := by rw [useSink_eq]; rfl
@[simp] theorem useSink_pal : (useSink s).pal = s.pal := by rw [useSink_eq]; rfl
@[simp] theorem useSink_display : (useSink s).display = s.display := by rw [useSink_eq]; rfl
@[simp] theorem useSink_fstat : (useSink s).fstat = s.fstat := by rw [useSink_eq]; rfl
@[simp] theorem useSink_fcode : (useSink s).fcode = s.fcode := by rw [useSink_eq]; rfl
@[simp] theorem useSink_finfo : (useSink s).finfo = s.finfo := by rw [useSink_eq]; rfl
@[simp] theorem useSink_result : (useSink s).result = s.result := by rw [useSink_eq]; rfl
@[simp] theorem useSink_stream : (useSink s).stream = s.stream := by rw [useSink_eq]; rfl
@[simp] theorem useSink_sources : (useSink s).sources = s.sources := by rw [useSink_eq]; rfl
@[simp] theorem useSink_sunk : (useSink s).sunk = s.sunk := by rw [useSink_eq]; rfl
@[simp] theorem useSink_sinks : (useSink s).sinks = s.sinks.tail := by rw [useSink_eq]; rfl
theorem useSink_draws : (useSink s).draws = if s.sinks = [] then s.draws + 1 else s.draws := by rw [useSink_eq]; rfl
end

end Sys2Proof.Machine
end

