-- ==== Sys2Proof/Laws/Tables.lean ====
section
/-! SUPPORT. What reading a table gives after each operation on it: the clipped write, the grid draw, the layout of a
block, and the checks. -/

namespace Sys2Proof.Laws

open Sys2Proof.Machine

section
variable {α : Type}

@[simp] theorem length_mapFrom (f : Nat → α → α) (n : Nat) (l : List α) : (mapFrom f n l).length = l.length := by
  induction l generalizing n with
  | nil => rfl
  | cons a l ih => simp [mapFrom, ih]

theorem getElem?_mapFrom (f : Nat → α → α) (n : Nat) (l : List α) (i : Nat) :
    (mapFrom f n l)[i]? = l[i]?.map (f (n + i)) := by
  induction l generalizing n i with
  | nil => simp [mapFrom]
  | cons a l ih =>
    cases i with
    | zero => simp [mapFrom]
    | succ i => simp [mapFrom, ih, Nat.add_assoc, Nat.add_comm 1]

theorem getD_mapFrom (f : Nat → α → α) (n : Nat) (l : List α) (i : Nat) (d : α) (h : i < l.length) :
    (mapFrom f n l).getD i d = f (n + i) (l.getD i d) := by
  rw [List.getD_eq_getElem?_getD, getElem?_mapFrom, List.getD_eq_getElem?_getD, List.getElem?_eq_getElem h]
  rfl

theorem mem_mapFrom {f : Nat → α → α} {n : Nat} {l : List α} {b : α} (h : b ∈ mapFrom f n l) :
    ∃ a ∈ l, ∃ i, b = f i a := by
  obtain ⟨i, hi⟩ := List.mem_iff_getElem?.1 h
  rw [getElem?_mapFrom] at hi
  obtain ⟨a, ha, rfl⟩ := Option.map_eq_some_iff.1 hi
  exact ⟨a, List.mem_of_getElem? ha, n + i, rfl⟩

theorem getD_set (l : List α) (i j : Nat) (v d : α) (h : i < l.length) :
    (l.set i v).getD j d = if i = j then v else l.getD j d := by
  simp only [List.getD_eq_getElem?_getD, List.getElem?_set]
  split_ifs <;> simp_all

end

/-- A pixel buffer of `h` rows of `w` words. -/
abbrev Shape (fb : List (List Word)) (w h : Nat) : Prop := fb.length = h ∧ ∀ r ∈ fb, r.length = w

theorem Shape.row_length {fb : List (List Word)} {w h y : Nat} (hs : Shape fb w h) (hy : y < h) :
    (fb.getD y []).length = w := by
  have hy' : y < fb.length := hs.1 ▸ hy
  rw [List.getD_eq_getElem _ _ hy']
  exact hs.2 _ (List.getElem_mem hy')

/-- A grid draw keeps the buffer's shape. -/
theorem drawGrid_shape {fb : List (List Word)} {w h : Nat} (hs : Shape fb w h) (paint : Nat → Option Word)
    (x0 y0 : Int) (bw bh : Nat) : Shape (drawGrid fb paint x0 y0 bw bh) w h := by
  refine ⟨by simp [drawGrid, hs.1], fun r hr => ?_⟩
  obtain ⟨row, hrow, y, rfl⟩ := mem_mapFrom hr
  dsimp only
  split_ifs
  · simp [hs.2 row hrow]
  · exact hs.2 row hrow

/-- Every pixel of a buffer after a grid draw: the paint of the cell it lies in, or what it was. -/
theorem pixelOf_drawGrid {fb : List (List Word)} {w h : Nat} (hs : Shape fb w h) (paint : Nat → Option Word)
    (x0 y0 : Int) (bw bh : Nat) {x y : Nat} (hx : x < w) (hy : y < h) :
    pixelOf (drawGrid fb paint x0 y0 bw bh) x y =
      if (0 ≤ (x : Int) - x0 ∧ (x : Int) - x0 < 8 * bw) ∧ 0 ≤ (y : Int) - y0 ∧ (y : Int) - y0 < 8 * bh then
        (paint (8 * (((y : Int) - y0).toNat / bh) + ((x : Int) - x0).toNat / bw)).getD (pixelOf fb x y)
      else pixelOf fb x y := by
  have hr := hs.row_length hy
  rw [pixelOf, drawGrid, getD_mapFrom _ _ _ _ _ (by rw [hs.1]; exact hy)]
  simp only [Nat.zero_add]
  by_cases h1 : 0 ≤ (y : Int) - y0 ∧ (y : Int) - y0 < 8 * bh
  · rw [if_pos h1, getD_mapFrom _ _ _ _ _ (by rw [hr]; exact hx)]
    simp only [Nat.zero_add]
    by_cases h2 : 0 ≤ (x : Int) - x0 ∧ (x : Int) - x0 < 8 * bw
    · rw [if_pos h2, if_pos ⟨h2, h1⟩, pixelOf]
    · rw [if_neg h2, if_neg (fun h => h2 h.1), pixelOf]
  · rw [if_neg h1, if_neg (fun h => h1 h.2), pixelOf]

/-- A single clipped write keeps the buffer's shape. -/
theorem putPixel_shape {s : State} (hs : Shape s.fb s.cfg.screenW s.cfg.screenH) (x y : Int) (c : Word) :
    Shape (putPixel s x y c).fb s.cfg.screenW s.cfg.screenH := by
  unfold putPixel
  split_ifs with h
  · refine ⟨by simp [hs.1], fun r hr => ?_⟩
    rcases List.mem_or_eq_of_mem_set hr with hr | rfl
    · exact hs.2 r hr
    · rw [List.length_set]
      exact hs.row_length (by omega)
  · exact hs

/-- Every pixel after a single clipped write (40_framebuffer.md R53). -/
theorem pixel_putPixel {s : State} (hs : Shape s.fb s.cfg.screenW s.cfg.screenH) (x y : Int) (c : Word) {i j : Nat}
    (hi : i < s.cfg.screenW) (hj : j < s.cfg.screenH) :
    pixel (putPixel s x y c) i j = if (i : Int) = x ∧ (j : Int) = y then c else pixel s i j := by
  unfold putPixel
  split_ifs with h1 h2 h2
  · obtain ⟨rfl, rfl⟩ := h2
    have hr := hs.row_length hj
    rw [pixel, pixelOf, State.setFb_fb, getD_set _ _ _ _ _ (by rw [hs.1]; omega), if_pos (by simp),
      getD_set _ _ _ _ _ (by rw [Int.toNat_natCast, Int.toNat_natCast, hr]; exact hi), if_pos (by simp)]
  · rw [pixel, pixelOf, State.setFb_fb, getD_set _ _ _ _ _ (by rw [hs.1]; omega)]
    split_ifs with h3
    · rw [getD_set _ _ _ _ _ (by rw [hs.row_length (by omega)]; omega), if_neg (by omega), pixel, pixelOf, h3]
    · rfl
  · omega
  · rfl

@[simp] theorem length_rowsOf {α : Type} (size n : Nat) (l : List α) : (rowsOf size n l).length = n := by
  induction n generalizing l with
  | zero => rfl
  | succ n ih => simp [rowsOf, ih]

theorem rowsOf_lengths {α : Type} (size n : Nat) (l : List α) (h : size * n ≤ l.length) :
    ∀ r ∈ rowsOf size n l, r.length = size := by
  induction n generalizing l with
  | zero => simp [rowsOf]
  | succ n ih =>
    have h' : size * n + size ≤ l.length := by simpa [Nat.mul_succ] using h
    simp only [rowsOf, List.mem_cons, forall_eq_or_imp, List.length_take]
    exact ⟨by omega, ih _ (by rw [List.length_drop]; omega)⟩

/-- Row `r` of a block cut into rows, element by element. -/
theorem getD_rowsOf {α : Type} (size n : Nat) (l : List α) (r c : Nat) (d : α) (hr : r < n) (hc : c < size) :
    ((rowsOf size n l).getD r []).getD c d = l.getD (size * r + c) d := by
  induction n generalizing l r with
  | zero => omega
  | succ n ih =>
    cases r with
    | zero => simp [rowsOf, List.getD_eq_getElem?_getD, hc]
    | succ r =>
      have := ih (l.drop size) r (by omega)
      simp only [rowsOf, List.getD_cons_succ, this]
      simp [List.getD_eq_getElem?_getD, Nat.mul_succ, Nat.add_comm, Nat.add_left_comm]

/-- Rows laid end to end and cut again are the rows. -/
theorem rowsOf_flatten {α : Type} (size : Nat) (rows : List (List α)) (h : ∀ r ∈ rows, r.length = size) :
    rowsOf size rows.length rows.flatten = rows := by
  induction rows with
  | nil => rfl
  | cons r rows ih =>
    have hr : r.length = size := h r (by simp)
    have := ih fun q hq => h q (by simp [hq])
    simp only [List.length_cons, rowsOf, List.flatten_cons]
    rw [← hr, List.take_left, List.drop_left, hr, this]

theorem length_flatten_rows {α : Type} (size : Nat) (rows : List (List α)) (h : ∀ r ∈ rows, r.length = size) :
    rows.flatten.length = size * rows.length := by
  induction rows with
  | nil => simp
  | cons r rows ih =>
    simp [h r (by simp), ih fun q hq => h q (by simp [hq]), Nat.mul_succ, Nat.add_comm]

/-- Element `size * r + c` of rows laid end to end is element `c` of row `r`. -/
theorem getD_flatten_rows {α : Type} (size : Nat) (rows : List (List α)) (h : ∀ r ∈ rows, r.length = size)
    (r c : Nat) (d : α) (hc : c < size) : rows.flatten.getD (size * r + c) d = (rows.getD r []).getD c d := by
  by_cases hr : r < rows.length
  · have := getD_rowsOf size rows.length rows.flatten r c d hr hc
    rw [rowsOf_flatten size rows h] at this
    exact this.symm
  · have hl := length_flatten_rows size rows h
    have h1 : size * rows.length ≤ size * r := Nat.mul_le_mul_left _ (by omega)
    have h2 : rows.flatten.length ≤ size * r + c := by omega
    have h3 : rows.getD r [] = [] := by simp [List.getD_eq_getElem?_getD, List.getElem?_eq_none (by omega : rows.length ≤ r)]
    rw [h3]
    simp [List.getD_eq_getElem?_getD, List.getElem?_eq_none h2]

/-- The least position below `n` at which a test holds. -/
theorem find?_range_eq_some_iff (p : Nat → Bool) (n i : Nat) :
    (List.range n).find? p = some i ↔ i < n ∧ p i = true ∧ ∀ j < i, p j = false := by
  rw [List.find?_range_eq_some]
  simp only [List.mem_range, Bool.not_eq_true']
  tauto

theorem find?_range_eq_none_iff (p : Nat → Bool) (n : Nat) :
    (List.range n).find? p = none ↔ ∀ i < n, p i = false := by
  simp [List.find?_eq_none]

end Sys2Proof.Laws
end

