-- ==== Sys2Proof/Laws/Memory.lean ====
section
/-! SUPPORT. Every operation on the tables keeps their shapes (`Memory.wf`), and they have them after reset. -/

namespace Sys2Proof.Laws

open Sys2Proof.Machine

/-- The tables of a state have the shapes of 10_state.md R9 after every reset. -/
theorem resetOf_wf (c : Config) (d : Nat) : Memory.wf (State.resetOf c d) := by
  refine ⟨List.length_replicate, fun g hg => ?_, ?_, fun r hr => ?_, List.length_replicate, fun t ht => ?_,
    List.length_replicate, ?_⟩
  · rw [List.eq_of_mem_replicate hg, List.length_replicate]
  · exact (List.length_map _).trans List.length_range
  · obtain ⟨y, -, rfl⟩ := List.mem_map.1 hr
    exact (List.length_map _).trans List.length_range
  · rw [List.eq_of_mem_replicate ht, List.length_replicate]
  · exact (List.length_map _).trans List.length_range

theorem reset_wf : Memory.wf State.reset := resetOf_wf _ _

theorem applyReset_wf (s : State) : Memory.wf (applyReset s) := resetOf_wf s.cfg (s.draws + 1)

variable {s : State}

theorem fb_shape (h : Memory.wf s) : Shape s.fb s.cfg.screenW s.cfg.screenH := ⟨h.2.2.1, h.2.2.2.1⟩

/-- An update that leaves tables and parameters alone keeps the shapes. -/
theorem wf_of_same {t : State} (h : Memory.wf s) (hc : t.cfg = s.cfg) (h1 : t.charset = s.charset) (h2 : t.fb = s.fb)
    (h3 : t.tile = s.tile) (h4 : t.pal = s.pal) (h5 : t.display = s.display) : Memory.wf t := by
  simpa only [Memory.wf, hc, h1, h2, h3, h4, h5] using h

theorem recordFault_wf (h : Memory.wf s) (opc : Byte) (c : Condition) : Memory.wf (recordFault s opc c) :=
  wf_of_same h rfl rfl rfl rfl rfl rfl

theorem raise_wf (h : Memory.wf s) (o : Opcode) (c : Condition) : Memory.wf (raise s o c) := recordFault_wf h _ c

theorem setResult_wf (h : Memory.wf s) (v : Word) : Memory.wf (s.setResult v) := wf_of_same h rfl rfl rfl rfl rfl rfl

theorem consume_wf (h : Memory.wf s) (rest : List Word) : Memory.wf (consume s rest) :=
  wf_of_same h rfl rfl rfl rfl rfl rfl

theorem deliver_wf (h : Memory.wf s) (d : Delivered) : Memory.wf (deliver s d) := wf_of_same h rfl rfl rfl rfl rfl rfl

theorem useSource_wf (h : Memory.wf s) : Memory.wf (useSource s) := wf_of_same h (by simp) (by simp) (by simp) (by simp)
  (by simp) (by simp)

theorem useSink_wf (h : Memory.wf s) : Memory.wf (useSink s) := wf_of_same h (by simp) (by simp) (by simp) (by simp)
  (by simp) (by simp)

theorem setCharset_wf (h : Memory.wf s) {v : List (List Byte)} (h1 : v.length = 256) (h2 : ∀ g ∈ v, g.length = 8) :
    Memory.wf (s.setCharset v) := ⟨h1, h2, h.2.2⟩

theorem setFb_wf (h : Memory.wf s) {v : List (List Word)} (hv : Shape v s.cfg.screenW s.cfg.screenH) :
    Memory.wf (s.setFb v) := ⟨h.1, h.2.1, hv.1, hv.2, h.2.2.2.2⟩

theorem setTile_wf (h : Memory.wf s) {v : List (List Word)} (h1 : v.length = 768) (h2 : ∀ t ∈ v, t.length = 64) :
    Memory.wf (s.setTile v) := ⟨h.1, h.2.1, h.2.2.1, h.2.2.2.1, h1, h2, h.2.2.2.2.2.2⟩

theorem setPal_wf (h : Memory.wf s) {v : List Word} (h1 : v.length = 256) : Memory.wf (s.setPal v) :=
  ⟨h.1, h.2.1, h.2.2.1, h.2.2.2.1, h.2.2.2.2.1, h.2.2.2.2.2.1, h1, h.2.2.2.2.2.2.2⟩

theorem setDisplay_wf (h : Memory.wf s) {v : List Word} (h1 : v.length = s.cfg.screenW * s.cfg.screenH) :
    Memory.wf (s.setDisplay v) :=
  ⟨h.1, h.2.1, h.2.2.1, h.2.2.2.1, h.2.2.2.2.1, h.2.2.2.2.2.1, h.2.2.2.2.2.2.1, h1⟩

theorem setGlyphRows_wf (h : Memory.wf s) (g : Nat) {rows : List Byte} (hr : rows.length = 8) :
    Memory.wf (setGlyphRows s g rows) :=
  setCharset_wf h (by simp [h.1]) fun r hm => (List.mem_or_eq_of_mem_set hm).elim (h.2.1 r) fun e => e ▸ hr

theorem setTileCells_wf (h : Memory.wf s) (t : Nat) {cells : List Word} (hr : cells.length = 64) :
    Memory.wf (setTileCells s t cells) :=
  setTile_wf h (by simp [h.2.2.2.2.1]) fun r hm =>
    (List.mem_or_eq_of_mem_set hm).elim (h.2.2.2.2.2.1 r) fun e => e ▸ hr

/-- A tile that exists has 64 cells. -/
theorem tile_length (h : Memory.wf s) {t : Nat} (ht : t < 768) : (s.tile.getD t []).length = 64 := by
  have ht' : t < s.tile.length := by rw [h.2.2.2.2.1]; exact ht
  rw [List.getD_eq_getElem _ _ ht']
  exact h.2.2.2.2.2.1 _ (List.getElem_mem ht')

/-- A glyph that exists has 8 rows. -/
theorem glyph_length (h : Memory.wf s) {g : Nat} (hg : g < 256) : (s.charset.getD g []).length = 8 := by
  have hg' : g < s.charset.length := by rw [h.1]; exact hg
  rw [List.getD_eq_getElem _ _ hg']
  exact h.2.1 _ (List.getElem_mem hg')

theorem setCell_wf (h : Memory.wf s) {t : Nat} (ht : t < 768) (k : Nat) (v : Word) : Memory.wf (setCell s t k v) :=
  setTileCells_wf h t (by simp only [List.length_set, tile_length h ht])

theorem setColor_wf (h : Memory.wf s) (i : Nat) (v : Word) : Memory.wf (setColor s i v) :=
  setPal_wf h (by simp [h.2.2.2.2.2.2.1])

theorem putPixel_wf (h : Memory.wf s) (x y : Int) (c : Word) : Memory.wf (putPixel s x y c) := by
  have hs := putPixel_shape (fb_shape h) x y c
  unfold putPixel at hs ⊢
  split_ifs with hin
  · rw [if_pos hin] at hs
    exact setFb_wf h hs
  · exact h

/-- The buffer after a glyph, a string, a tile or a row of tiles keeps its shape. -/
theorem drawGlyphs_shape {w hh : Nat} (y : Int) (fg bg : Word) (x : Int) (str : List Byte) {fb : List (List Word)}
    (hs : Shape fb w hh) : Shape (drawGlyphs s y fg bg x str fb) w hh := by
  induction str generalizing x fb with
  | nil => exact hs
  | cons b str ih => exact ih (x + 1) (drawGrid_shape hs _ _ _ _ _)

theorem drawTiles_shape {w hh : Nat} (fg bg : Word) (bw bh : Nat) (l : List (Byte × Int × Int)) {fb : List (List Word)}
    (hs : Shape fb w hh) : Shape (drawTiles s fg bg bw bh l fb) w hh := by
  induction l generalizing fb with
  | nil => exact hs
  | cons b l ih => exact ih (drawGrid_shape hs _ _ _ _ _)

theorem charsetOfBlock_wf {b : List Byte} (h : b.length = 2048) :
    (charsetOfBlock b).length = 256 ∧ ∀ g ∈ charsetOfBlock b, g.length = 8 :=
  ⟨length_rowsOf _ _ _, rowsOf_lengths _ _ _ (by omega)⟩

theorem tilesetOfBlock_wf {b : List Byte} (h : b.length = 196608) :
    (tilesetOfBlock b).length = 768 ∧ ∀ t ∈ tilesetOfBlock b, t.length = 64 :=
  ⟨length_rowsOf _ _ _, rowsOf_lengths _ _ _ (by simp [h, payloadWords])⟩

theorem paletteOfBlock_wf {b : List Byte} (h : b.length = 1024) : (paletteOfBlock b).length = 256 := by
  simp [paletteOfBlock, h, payloadWords]

/-- `BlockRead(n)` answers a failure to open or to read, or exactly `n` bytes (20_memory.md R40). -/
theorem sourceAnswer_cases (n : Nat) (src : Source) :
    sourceAnswer n src = .error .ioOpen ∨ sourceAnswer n src = .error .ioRead ∨
      ∃ b, sourceAnswer n src = .ok b ∧ b.length = n := by
  cases src with
  | bytes b =>
    by_cases h : b.length < n
    · simp [sourceAnswer, h]
    · exact .inr (.inr ⟨b.take n, by simp [sourceAnswer, h], by simp; omega⟩)
  | unopenable => exact .inl rfl
  | unreadable => exact .inr (.inl rfl)

/-- What a `LOAD*` does: the port is used, and either one of the two failures is recorded or exactly `n` bytes are
loaded. -/
theorem loadBlock_cases (s : State) (o : Opcode) (n : Nat) (load : State → List Byte → State) :
    loadBlock s o n load = raise (useSource s) o .ioOpen ∨ loadBlock s o n load = raise (useSource s) o .ioRead ∨
      ∃ b, b.length = n ∧ loadBlock s o n load = load (useSource s) b := by
  unfold loadBlock
  obtain h | h | ⟨b, h, hb⟩ := sourceAnswer_cases n (nextSource s) <;> rw [h]
  · exact .inl rfl
  · exact .inr (.inl rfl)
  · exact .inr (.inr ⟨b, hb, rfl⟩)

theorem loadBlock_wf (h : Memory.wf s) (o : Opcode) (n : Nat) {load : State → List Byte → State}
    (hl : ∀ s' b, Memory.wf s' → b.length = n → Memory.wf (load s' b)) : Memory.wf (loadBlock s o n load) := by
  obtain e | e | ⟨b, hb, e⟩ := loadBlock_cases s o n load <;> rw [e]
  · exact raise_wf (useSource_wf h) _ _
  · exact raise_wf (useSource_wf h) _ _
  · exact hl _ _ (useSource_wf h) hb

/-- What a `SAVE*` does: the port is used, and either the block is delivered or a failure is recorded. -/
theorem saveBlock_cases (s : State) (o : Opcode) (b : List Byte) :
    saveBlock s o b = deliver (useSink s) (.block b) ∨
      saveBlock s o b = raise (deliver (useSink s) .unspecified) o .ioOpen ∨
      saveBlock s o b = raise (deliver (useSink s) .unspecified) o .ioWrite := by
  unfold saveBlock
  cases nextSink s <;> simp

theorem saveBlock_wf (h : Memory.wf s) (o : Opcode) (b : List Byte) : Memory.wf (saveBlock s o b) := by
  obtain e | e | e := saveBlock_cases s o b <;> rw [e]
  · exact deliver_wf (useSink_wf h) _
  · exact raise_wf (deliver_wf (useSink_wf h) _) _ _
  · exact raise_wf (deliver_wf (useSink_wf h) _) _ _

end Sys2Proof.Laws
end

