-- ==== Sys2Proof/Laws/Commands.lean ====
section
/-! SUPPORT. What the shared operations of the meanings answer, one lemma each: decoding a whole command, raising a
condition, the checks, writing one row of a table, and the block port. -/

namespace Sys2Proof.Laws

open Sys2Proof.Machine

/-- A legal header followed by the words it asks for decodes to its command, whatever comes behind (30_encoding.md R52). -/
theorem decode_whole {h : Word} {o : Opcode} (hr : readHeader h = .ok o) {body : List Word}
    (hb : body.length = bodyWords o h) (rest : List Word) :
    decode (h :: (body ++ rest)) = .command (buildInstr o h body) rest := by
  have hn : ¬ (body ++ rest).length < bodyWords o h := by rw [List.length_append]; omega
  rw [decode, hr]
  dsimp only
  rw [if_neg hn, ← hb, List.take_left, List.drop_left]

/-- The header of a payload command, written as a number (R42). -/
theorem ofNat_eq_makeHeader (o : Opcode) {c : Nat} (n : Nat) (hc : o.code = BitVec.ofNat 8 c) (hlt : c < 256) :
    BitVec.ofNat 32 (c + 65536 * n) = makeHeader o false false n := by
  apply BitVec.eq_of_getLsbD_eq
  intro i hi
  have hbig : 8 ≤ i → c.testBit i = false := fun h =>
    Nat.testBit_lt_two_pow (lt_of_lt_of_le hlt (Nat.pow_le_pow_right (n := 2) (by omega) h))
  rw [getLsbD_makeHeader, hc]
  simp only [BitVec.getLsbD_ofNat]
  rw [show c + 65536 * n = 2 ^ 16 * n + c by ring, Nat.testBit_two_pow_mul_add _ (by omega : c < 2 ^ 16)]
  split_ifs <;> simp_all <;> omega

/-- The bytes of words, one by one (20_memory.md R28). -/
theorem getD_unpackBytes (ws : List Word) (i : Nat) {j : Nat} (hj : j < 4) :
    (unpackBytes ws).getD (4 * i + j) 0#8 = (ws.getD i 0#32).extractLsb' (8 * j) 8 := by
  induction ws generalizing i with
  | nil => simp
  | cons v ws ih =>
    cases i with
    | zero => interval_cases j <;> simp [wordByte]
    | succ i => simpa [show 4 * (i + 1) + j = 4 * i + j + 1 + 1 + 1 + 1 by ring] using ih i

/-- The words of bytes, one by one (R28); a block of whole words has no padding. -/
theorem getD_packBytes (b : List Byte) {i : Nat} (hi : 4 * i + 3 < b.length) :
    (packBytes b).getD i 0#32
      = b.getD (4 * i + 3) 0#8 ++ b.getD (4 * i + 2) 0#8 ++ b.getD (4 * i + 1) 0#8 ++ b.getD (4 * i) 0#8 := by
  induction b using packBytes.induct generalizing i with
  | case1 | case2 | case3 | case4 => simp at hi
  | case5 a b c d rest ih =>
    cases i with
    | zero => rfl
    | succ i =>
      have := ih (i := i) (by simp only [List.length_cons] at hi; omega)
      simpa [packBytes, show 4 * (i + 1) + 3 = 4 * i + 3 + 1 + 1 + 1 + 1 by ring,
        show 4 * (i + 1) + 2 = 4 * i + 2 + 1 + 1 + 1 + 1 by ring,
        show 4 * (i + 1) + 1 = 4 * i + 1 + 1 + 1 + 1 + 1 by ring,
        show 4 * (i + 1) = 4 * i + 1 + 1 + 1 + 1 by ring] using this

/-- The payload words of a string unpack to it, padding cut (R44). -/
theorem take_of_payloadSpells {ws : List Word} {str : List Byte} (h : PayloadSpells ws str) :
    (unpackBytes ws).take str.length = str := by
  apply List.ext_getElem
  · simp [h.1]; omega
  · intro i h1 h2
    have e := getD_unpackBytes ws (i / 4) (j := i % 4) (by omega)
    rw [show 4 * (i / 4) + i % 4 = i by omega, ← h.2 i h2, List.getD_eq_getElem _ _ h2,
      List.getD_eq_getElem _ _ (by simp at h1 ⊢; omega)] at e
    rw [List.getElem_take, e]

/-- The characters a string command draws are those the effective length counts (R44). -/
theorem effective_eq_take {str : List Byte} {n : Nat} (h : IsStrLen str n) : effective str = str.take n := by
  obtain ⟨h1, h2, h3⟩ := h
  unfold effective
  induction str generalizing n with
  | nil => simp
  | cons b str ih =>
    cases n with
    | zero =>
      have hb : b = 0#8 := by simpa using h3 (by simp)
      simp [hb]
    | succ n =>
      have hb : b ≠ 0#8 := by simpa using h2 0 (by omega)
      have := ih (by simpa using h1) (fun i hi => by simpa using h2 (i + 1) (by omega))
        fun hn => by simpa using h3 (by simpa using hn)
      simp [hb, this]

/-- Fault entry, in the numbers of 60_exceptions.md R84. -/
theorem raise_eq_recorded (s : State) (o : Opcode) (c : Condition) :
    raise s o c = Recorded s o.code (conditionSub c) (conditionCode c) (conditionInfo c) := rfl

theorem recordFault_eq_recorded (s : State) (opc : Byte) (c : Condition) :
    recordFault s opc c = Recorded s opc (conditionSub c) (conditionCode c) (conditionInfo c) := rfl

/-- A character is one of the three of R64 or it stands for no cell. -/
theorem charCell_isNone_iff (m : Word) (ch : Byte) : (charCell m ch).isNone = true ↔ ch ∉ [0x30#8, 0x31#8, 0x20#8] := by
  unfold charCell
  split_ifs <;> simp_all

theorem not_isBicolor_iff (s : State) (t k : Nat) :
    (!isBicolor s.cfg.tMark (cell s t k)) = true ↔ NotBicolor s t k := by
  simp [isBicolor, NotBicolor, and_assoc]

/-- The bicolor check finds the lowest bad cell (43_tile_draw.md R73). -/
theorem bicolorFault_eq_some {s : State} {t k : Nat} (h : FirstBad s t k) : bicolorFault s t = some k := by
  refine (find?_range_eq_some_iff _ _ _).2 ⟨h.1, (not_isBicolor_iff s t k).2 h.2.1, fun j hj => ?_⟩
  have := h.2.2 j hj
  rw [← not_isBicolor_iff] at this
  simpa using this

/-- The bicolor check passes a bicolor tile. -/
theorem bicolorFault_eq_none {s : State} {t : Nat} (h : BicolorTile s t) : bicolorFault s t = none := by
  refine (find?_range_eq_none_iff _ _).2 fun j hj => ?_
  have := h j hj
  rw [← not_isBicolor_iff] at this
  simpa using this

/-- The index check passes a tile whose cells all name palette entries (43_tile_draw.md R75). -/
theorem indexFault_eq_none {s : State} {t : Nat} (h : ∀ k < 64, (cell s t k).toNat < 256) : indexFault s t = none :=
  (find?_range_eq_none_iff _ _).2 fun k hk => by simpa using h k hk

/-- The index check finds the lowest cell that names no palette entry (R75). -/
theorem indexFault_eq_some {s : State} {t k : Nat} (hk : k < 64) (hb : 256 ≤ (cell s t k).toNat)
    (h : ∀ j < k, (cell s t j).toNat < 256) : indexFault s t = some k :=
  (find?_range_eq_some_iff _ _ _).2 ⟨hk, by simpa using hb, fun j hj => by simpa using h j hj⟩

/-- The checks of a string pass when every character names a bicolor tile (43_tile_draw.md R76). -/
theorem stringFault_eq_none {s : State} {str : List Byte}
    (h : ∀ i < str.length, BicolorTile s (str.getD i 0#8).toNat) : stringFault s str = none := by
  induction str with
  | nil => rfl
  | cons b str ih =>
    have h0 : BicolorTile s b.toNat := h 0 (by simp)
    rw [stringFault, bicolorFault_eq_none h0]
    exact ih fun i hi => h (i + 1) (by simpa using hi)

/-- The checks of a string stop at the first character whose tile is no bicolor tile (R76). -/
theorem stringFault_eq_some {s : State} {str : List Byte} {i k : Nat} (hi : i < str.length)
    (h : ∀ j < i, BicolorTile s (str.getD j 0#8).toNat) (hk : FirstBad s (str.getD i 0#8).toNat k) :
    stringFault s str = some (64 * (str.getD i 0#8).toNat + k) := by
  induction str generalizing i with
  | nil => simp at hi
  | cons b str ih =>
    cases i with
    | zero =>
      rw [stringFault, bicolorFault_eq_some (s := s) (t := b.toNat) hk]
      rfl
    | succ i =>
      have h0 : BicolorTile s b.toNat := h 0 (by omega)
      rw [stringFault, bicolorFault_eq_none h0]
      exact ih (by simpa using hi) (fun j hj => h (j + 1) (by omega)) hk

/-- A colour operand with its top byte zero is the word it packs (44_palette.md R77, R78). -/
theorem rgbWord_wordByte {rgb : Word} (h : wordByte rgb 3 = 0#8) :
    rgbWord (wordByte rgb 2) (wordByte rgb 1) (wordByte rgb 0) = rgb := by
  have := joinBytes_wordByte rgb
  rwa [h] at this

theorem getD_take {α : Type} (l : List α) {n i : Nat} (d : α) (h : i < n) : (l.take n).getD i d = l.getD i d := by
  simp [List.getD_eq_getElem?_getD, h]

/-- Reading a cell after one tile has been written. -/
theorem cell_setTileCells {s : State} (h : Memory.wf s) {t : Nat} (ht : t < 768) (cells : List Word) (u k : Nat) :
    cell (setTileCells s t cells) u k = if u = t then cells.getD k 0#32 else cell s u k := by
  simp only [cell, setTileCells_tile]
  rw [getD_set _ _ _ _ _ (by rw [h.2.2.2.2.1]; exact ht)]
  by_cases e : t = u
  · rw [if_pos e, if_pos e.symm]
  · rw [if_neg e, if_neg (Ne.symm e)]

/-- Reading a glyph row after one glyph has been written. -/
theorem charRow_setGlyphRows {s : State} (h : Memory.wf s) {g : Nat} (hg : g < 256) (rows : List Byte) (g' r : Nat) :
    charRow (setGlyphRows s g rows) g' r = if g' = g then rows.getD r 0#8 else charRow s g' r := by
  simp only [charRow, setGlyphRows_charset]
  rw [getD_set _ _ _ _ _ (by rw [h.1]; exact hg)]
  by_cases e : g = g'
  · rw [if_pos e, if_pos e.symm]
  · rw [if_neg e, if_neg (Ne.symm e)]

/-- Reading the palette after one entry has been written. -/
theorem color_setColor {s : State} (h : Memory.wf s) {i : Nat} (hi : i < 256) (v : Word) (j : Nat) :
    color (setColor s i v) j = if j = i then v else color s j := by
  simp only [color, setColor_pal]
  rw [getD_set _ _ _ _ _ (by rw [h.2.2.2.2.2.2.1]; exact hi)]
  by_cases e : i = j
  · rw [if_pos e, if_pos e.symm]
  · rw [if_neg e, if_neg (Ne.symm e)]

section
variable {s : State} {o : Opcode} {n : Nat} {load : State → List Byte → State} {b : List Byte}

/-! The block port (20_memory.md R40). -/

theorem loadBlock_of_unopenable (h : nextSource s = .unopenable) :
    loadBlock s o n load = raise (useSource s) o .ioOpen := by simp [loadBlock, h, sourceAnswer]

theorem loadBlock_of_unreadable (h : nextSource s = .unreadable) :
    loadBlock s o n load = raise (useSource s) o .ioRead := by simp [loadBlock, h, sourceAnswer]

theorem loadBlock_of_short (h : nextSource s = .bytes b) (hb : b.length < n) :
    loadBlock s o n load = raise (useSource s) o .ioRead := by simp [loadBlock, h, sourceAnswer, hb]

theorem loadBlock_of_long (h : nextSource s = .bytes b) (hb : n ≤ b.length) :
    loadBlock s o n load = load (useSource s) (b.take n) := by simp [loadBlock, h, sourceAnswer, Nat.not_lt.2 hb]

theorem saveBlock_of_accepts (h : nextSink s = .accepts) :
    saveBlock s o b = { useSink s with sunk := s.sunk ++ [.block b] } := by simp [saveBlock, h, deliver, State.setSunk]

theorem saveBlock_of_unopenable (h : nextSink s = .unopenable) :
    saveBlock s o b = raise { useSink s with sunk := s.sunk ++ [.unspecified] } o .ioOpen := by
  simp [saveBlock, h, deliver, State.setSunk]

theorem saveBlock_of_unwritable (h : nextSink s = .unwritable) :
    saveBlock s o b = raise { useSink s with sunk := s.sunk ++ [.unspecified] } o .ioWrite := by
  simp [saveBlock, h, deliver, State.setSunk]

end

/-- The length of each block (20_memory.md R29, R30, R31). -/
theorem length_charsetBlock {s : State} (h : Memory.wf s) : (charsetBlock s).length = 2048 := by
  rw [charsetBlock, length_flatten_rows 8 _ h.2.1, h.1]

theorem length_tilesetBlock {s : State} (h : Memory.wf s) : (tilesetBlock s).length = 196608 := by
  rw [tilesetBlock, length_unpackBytes, length_flatten_rows 64 _ h.2.2.2.2.2.1, h.2.2.2.2.1]

theorem length_paletteBlock {s : State} (h : Memory.wf s) : (paletteBlock s).length = 1024 := by
  rw [paletteBlock, length_unpackBytes, h.2.2.2.2.2.2.1]

end Sys2Proof.Laws
end

