-- ==== Sys2Proof/Laws/Loops.lean ====
section
/-! SUPPORT. The loops of `PutPixel` that the draw rules write down (41_font.md R58, R59; 43_tile_draw.md R73, R75,
R76) leave what the model's grid draw computes pixel by pixel. -/

namespace Sys2Proof.Laws

open Sys2Proof.Machine

theorem forTo_succ (n : Nat) (f : Nat → State → State) (s : State) : forTo (n+1) f s = f n (forTo n f s) := by
  simp [forTo, List.range_succ]
theorem forTo_zero (f : Nat → State → State) (s : State) : forTo 0 f s = s := rfl

/-- Two loops with the same bodies are the same. -/
theorem forTo_congr {n : Nat} {f g : Nat → State → State} {s : State} (h : ∀ i < n, ∀ s, f i s = g i s) :
    forTo n f s = forTo n g s := by
  induction n with
  | zero => rfl
  | succ n ih => rw [forTo_succ, forTo_succ, h n (by omega), ih fun i hi => h i (by omega)]

/-- The framebuffer has the shape of the screen. -/
abbrev Sh (s : State) : Prop := Shape s.fb s.cfg.screenW s.cfg.screenH

/-- `t` is `s` but for the framebuffer, in which pixel `(p, q)` is painted `F p q` where that is some colour. -/
def Upd (s t : State) (F : Nat → Nat → Option Word) : Prop :=
  t = s.setFb t.fb ∧ Sh t ∧ ∀ p q, p < s.cfg.screenW → q < s.cfg.screenH → pixel t p q = (F p q).getD (pixel s p q)

theorem Upd.cfg {s t F} (h : Upd s t F) : t.cfg = s.cfg := by rw [h.1]; rfl

theorem Upd.refl {s} (h : Sh s) : Upd s s (fun _ _ => none) := ⟨rfl, h, by simp⟩

theorem Upd.trans {s t u F G} (h : Upd s t F) (h' : Upd t u G) : Upd s u (fun p q => (G p q).or (F p q)) := by
  refine ⟨?_, h'.2.1, ?_⟩
  · have := h'.1; rw [h.1] at this; rw [this]; rfl
  · intro p q hp hq
    rw [h'.2.2 p q (by rw [h.cfg]; exact hp) (by rw [h.cfg]; exact hq), h.2.2 p q hp hq]
    beta_reduce
    cases G p q <;> rfl

theorem Upd.congr {s t F G} (h : Upd s t F) (hg : ∀ p q, p < s.cfg.screenW → q < s.cfg.screenH → F p q = G p q) : Upd s t G :=
  ⟨h.1, h.2.1, fun p q hp hq => by rw [h.2.2 p q hp hq, hg p q hp hq]⟩

/-- One clipped write (40_framebuffer.md R53). -/
theorem upd_putPixel {s} (h : Sh s) (x y : Int) (c) : Upd s (putPixel s x y c) (fun p q => if (p:Int) = x ∧ (q:Int) = y then some c else none) := by
  refine ⟨by unfold putPixel; split_ifs <;> rfl, ?_, ?_⟩
  · have := putPixel_shape h x y c
    have hc : (putPixel s x y c).cfg = s.cfg := by unfold putPixel; split_ifs <;> rfl
    rw [Sh, hc]; exact this
  · intro p q hp hq
    rw [pixel_putPixel h x y c hp hq]; beta_reduce; split_ifs <;> rfl

/-- The loop over `i` of R73. -/
theorem upd_row {s} (h : Sh s) (X Y : Int) (c) (n : Nat) : Upd s (forTo n (fun i st => putPixel st (X+i) Y c) s)
   (fun p q => if (X ≤ p ∧ (p:Int) < X + n) ∧ (q:Int) = Y then some c else none) := by
  induction n with
  | zero => exact (Upd.refl h).congr (by intros; rw [if_neg (by push_cast; omega)])
  | succ n ih =>
    rw [forTo_succ]
    refine (ih.trans (upd_putPixel ih.2.1 _ _ _)).congr ?_
    intro p q _ _
    push_cast
    split_ifs <;> simp <;> omega

/-- The loops over `j` and `i` of R73. -/
theorem upd_block {s} (h : Sh s) (X Y : Int) (bw n : Nat) (c)  : Upd s (loopBlock X Y bw n c s)
   (fun p q => if (X ≤ p ∧ (p:Int) < X + bw) ∧ Y ≤ q ∧ (q:Int) < Y + n then some c else none) := by
  unfold loopBlock
  induction n with
  | zero => exact (Upd.refl h).congr (by intros; rw [if_neg (by push_cast; omega)])
  | succ n ih =>
    rw [forTo_succ]
    refine (ih.trans (upd_row ih.2.1 _ _ _ _)).congr ?_
    intro p q _ _
    push_cast
    split_ifs <;> simp <;> omega

/-- A block of `bw` by `bh` pixels painted `o`. -/
def blk (X Y : Int) (bw bh : Nat) (o : Option Word) (p q : Nat) : Option Word :=
  if (X ≤ p ∧ (p:Int) < X + bw) ∧ Y ≤ q ∧ (q:Int) < Y + bh then o else none

theorem toNat_div_eq {a : Int} {n b : Nat} (hb : 0 < b) (h1 : (n:Int) * b ≤ a) (h2 : a < (n+1) * b) : a.toNat / b = n := by
  obtain ⟨m, rfl⟩ : ∃ m : Nat, a = m := ⟨a.toNat, by
    have h0 : (0:Int) ≤ n * b := by positivity
    omega⟩
  norm_cast at h1 h2
  simp
  exact Nat.div_eq_of_lt_le (by simpa using h1) (by simpa using h2)

/-- The loop over the columns of one grid row, each of which paints its own block. -/
theorem upd_cols {s} (h : Sh s) (x0 Y : Int) (bw bh : Nat) (hb : 0 < bw) (paint : Nat → Option Word) (f : Nat → State → State)
    (n : Nat) (hf : ∀ i < n, ∀ st, st = s.setFb st.fb → Sh st → Upd st (f i st) (blk (x0 + i * bw) Y bw bh (paint i))) :
    Upd s (forTo n f s) (fun p q => if (x0 ≤ p ∧ (p:Int) < x0 + n*bw) ∧ Y ≤ q ∧ (q:Int) < Y + bh then paint (((p:Int)-x0).toNat / bw) else none) := by
  induction n with
  | zero => exact (Upd.refl h).congr (by intros; rw [if_neg (by push_cast; omega)])
  | succ n ih =>
    have ih := ih (fun i hi => hf i (by omega))
    rw [forTo_succ]
    refine (ih.trans (hf n (by omega) _ ih.1 ih.2.1)).congr ?_
    intro p q _ _
    unfold blk
    have e : ((n+1 : Nat):Int) * bw = n * bw + bw := by push_cast; ring
    have hpos : (0:Int) ≤ n * bw := by positivity
    generalize hg : (n:Int) * bw = g at *
    rw [e]
    by_cases hq : Y ≤ q ∧ (q:Int) < Y + bh
    · by_cases h1 : x0 + g ≤ p ∧ (p:Int) < x0 + g + bw
      · have : ((p:Int)-x0).toNat / bw = n := toNat_div_eq hb (by omega) (by rw [add_mul, hg]; omega)
        rw [if_pos ⟨h1, hq⟩, if_neg (by omega), if_pos (by omega), this]; simp
      · rw [if_neg (by tauto)]
        simp
        by_cases h2 : x0 ≤ p ∧ (p:Int) < x0 + g
        · rw [if_pos (by omega), if_pos (by omega)]
        · rw [if_neg (by omega), if_neg (by omega)]
    · rw [if_neg (by tauto), if_neg (by tauto), if_neg (by tauto)]; rfl

/-- The loop over the rows of a grid. -/
theorem upd_grid {s} (h : Sh s) (x0 y0 : Int) (bw bh : Nat) (hb : 0 < bw) (hh : 0 < bh) (paint : Nat → Option Word) (f : Nat → Nat → State → State)
    (n : Nat) (hf : ∀ r < n, ∀ c < 8, ∀ st, st = s.setFb st.fb → Sh st → Upd st (f r c st) (blk (x0 + c * bw) (y0 + r * bh) bw bh (paint (8*r+c)))) :
    Upd s (forTo n (fun r => forTo 8 (f r)) s) (fun p q => if (x0 ≤ p ∧ (p:Int) < x0 + 8*bw) ∧ y0 ≤ q ∧ (q:Int) < y0 + n*bh then
        paint (8 * (((q:Int)-y0).toNat / bh) + ((p:Int)-x0).toNat / bw) else none) := by
  induction n with
  | zero => exact (Upd.refl h).congr (by intros; rw [if_neg (by push_cast; omega)])
  | succ n ih =>
    have ih := ih (fun i hi => hf i (by omega))
    rw [forTo_succ]
    have hrow := upd_cols ih.2.1 x0 (y0 + n*bh) bw bh hb (fun c => paint (8*n+c)) (f n) 8 (by
      intro c hc st hst hsh
      refine hf n (by omega) c hc st ?_ hsh
      rw [hst, ih.1]; rfl)
    refine (ih.trans hrow).congr ?_
    intro p q _ _
    have e : ((n+1 : Nat):Int) * bh = n * bh + bh := by push_cast; ring
    have hpos : (0:Int) ≤ n * bh := by positivity
    generalize hg : (n:Int) * bh = g at *
    rw [e]
    push_cast
    by_cases hp : x0 ≤ p ∧ (p:Int) < x0 + 8*bw
    · by_cases h1 : y0 + g ≤ q ∧ (q:Int) < y0 + g + bh
      · have : ((q:Int)-y0).toNat / bh = n := toNat_div_eq hh (by omega) (by rw [add_mul, hg]; omega)
        rw [if_pos ⟨hp, h1⟩, if_neg (by omega), if_pos (by omega), this]; simp
      · rw [if_neg (by tauto)]
        simp
        by_cases h2 : y0 ≤ q ∧ (q:Int) < y0 + g
        · rw [if_pos (by omega), if_pos (by omega)]
        · rw [if_neg (by omega), if_neg (by omega)]
    · rw [if_neg (by tauto), if_neg (by tauto), if_neg (by tauto)]; rfl

/-- Two buffers of one shape with the same pixels are equal. -/
theorem buffer_ext {a b : List (List Word)} {w h} (ha : Shape a w h) (hb : Shape b w h) (hp : ∀ p < w, ∀ q < h, pixelOf a p q = pixelOf b p q) : a = b := by
  apply List.ext_getElem (by rw [ha.1, hb.1])
  intro q hq hq'
  have l1 : a[q].length = w := ha.2 _ (List.getElem_mem _)
  have l2 : b[q].length = w := hb.2 _ (List.getElem_mem _)
  apply List.ext_getElem (by rw [l1, l2])
  intro p hp1 hp2
  have := hp p (by omega) q (by rw [← ha.1]; exact hq)
  unfold pixelOf at this
  rwa [List.getD_eq_getElem _ _ hq, List.getD_eq_getElem _ _ hq', List.getD_eq_getElem _ _ hp1, List.getD_eq_getElem _ _ hp2] at this

/-- A loop nest over the 8 x 8 grid whose body paints the cell's block is a grid draw. -/
theorem forTo_grid_eq_drawGrid {s} (h : Sh s) (x0 y0 : Int) (bw bh : Nat) (hb : 0 < bw) (hh : 0 < bh) (paint : Nat → Option Word) (f : Nat → Nat → State → State)
    (hf : ∀ r < 8, ∀ c < 8, ∀ st, st = s.setFb st.fb → Sh st → Upd st (f r c st) (blk (x0 + c * bw) (y0 + r * bh) bw bh (paint (8*r+c)))) :
    forTo 8 (fun r => forTo 8 (f r)) s = s.setFb (drawGrid s.fb paint x0 y0 bw bh) := by
  have hu := upd_grid h x0 y0 bw bh hb hh paint f 8 hf
  rw [hu.1]
  congr 1
  refine buffer_ext (w := s.cfg.screenW) (h := s.cfg.screenH) (by have := hu.2.1; rw [Sh, hu.cfg] at this; exact this) (drawGrid_shape h _ _ _ _ _) ?_
  intro p hp q hq
  have := hu.2.2 p q hp hq
  rw [pixel] at this
  rw [this, pixelOf_drawGrid h _ _ _ _ _ hp hq, pixel]
  push_cast
  by_cases hc : (x0 ≤ p ∧ (p:Int) < x0 + 8*bw) ∧ y0 ≤ q ∧ (q:Int) < y0 + 8*bh
  · rw [if_pos hc, if_pos (by omega)]
  · rw [if_neg hc, if_neg (by omega)]; rfl

/-- `DrawBi` of R73. -/
theorem loopDrawBi_eq {s} (h : Sh s) (t fg bg x0 y0) (bw bh : Nat) (hb : 0 < bw) (hh : 0 < bh) :
    loopDrawBi t fg bg x0 y0 bw bh s = s.setFb (drawBi s s.fb t fg bg x0 y0 bw bh) := by
  unfold loopDrawBi drawBi
  refine forTo_grid_eq_drawGrid h x0 y0 bw bh hb hh (fun k => bicolorPaint s.cfg.tMark fg bg (cell s t k)) _ ?_
  intro r hr c hc st hst hsh
  have hcell : ∀ k, cell st t k = cell s t k := by intro k; rw [hst]; rfl
  have hcfg : st.cfg = s.cfg := by rw [hst]; rfl
  simp only [hcell, hcfg, bicolorPaint]
  split_ifs with h1
  · exact (Upd.refl hsh).congr (by intros; simp [blk])
  · exact upd_block hsh _ _ _ _ _
  · exact upd_block hsh _ _ _ _ _

/-- The loops of R75. -/
theorem loopDrawMc_eq {s} (h : Sh s) (indexed t x0 y0) (bw bh : Nat) (hb : 0 < bw) (hh : 0 < bh) :
    loopDrawMc indexed t x0 y0 bw bh s = s.setFb (drawGrid s.fb (fun k => some (multicolor s indexed (cell s t k))) x0 y0 bw bh) := by
  unfold loopDrawMc
  refine forTo_grid_eq_drawGrid h x0 y0 bw bh hb hh (fun k => some (multicolor s indexed (cell s t k))) _ ?_
  intro r hr c hc st hst hsh
  have hcell : ∀ k, cell st t k = cell s t k := by intro k; rw [hst]; rfl
  have hcol : ∀ k, color st k = color s k := by intro k; rw [hst]; rfl
  simp only [hcell, hcol, multicolor, idx]
  exact upd_block hsh _ _ _ _ _

/-- The loops of R58. -/
theorem loopDrawChar_eq {s} (h : Sh s) (g x y fg bg)  :
    loopDrawChar g x y fg bg s = s.setFb (drawGlyph s s.fb g x y fg bg) := by
  unfold loopDrawChar drawGlyph
  refine forTo_grid_eq_drawGrid h (8*x) (8*y) 1 1 (by omega) (by omega) (glyphPaint (s.charset.getD g []) fg bg) _ ?_
  intro r hr c hc st hst hsh
  have hrow : charRow st g r = charRow s g r := by rw [hst]; rfl
  refine (upd_putPixel hsh _ _ _).congr ?_
  intro p q _ _
  simp only [blk, hrow, glyphPaint, rowBit]
  have e1 : (8*r+c)/8 = r := by omega
  have e2 : (8*r+c)%8 = c := by omega
  rw [e1, e2]
  simp only [charRow]
  by_cases hh : (p:Int) = 8*x+c ∧ (q:Int) = 8*y+r
  · rw [if_pos hh, if_pos (by omega)]
    rfl
  · rw [if_neg hh, if_neg (by omega)]


theorem forTo_succ_first (f : Nat → State → State) (n : Nat) (s : State) : forTo (n+1) f s = forTo n (fun i => f (i+1)) (f 0 s) := by
  simp [forTo, List.range_succ_eq_map, List.foldl_map]

/-- Drawing a string reads the charset, not the framebuffer of the state. -/
theorem drawGlyphs_setFb (s : State) (v) (y fg bg) (str : List Byte) (x : Int) (fb) :
   drawGlyphs (s.setFb v) y fg bg x str fb = drawGlyphs s y fg bg x str fb := by
  induction str generalizing x fb with
  | nil => rfl
  | cons b str ih => simp [drawGlyphs, ih, drawGlyph]

/-- The loop of R59. -/
theorem loopPrint_eq {s} (h : Sh s) (str x y fg bg) :
   loopPrint str.length str x y fg bg s = s.setFb (drawGlyphs s y fg bg x str s.fb) := by
  induction str generalizing s x with
  | nil => rfl
  | cons b str ih =>
    unfold loopPrint at ih ⊢
    rw [List.length_cons, forTo_succ_first]
    simp only [List.getD_cons_succ, List.getD_cons_zero, Nat.cast_zero, add_zero]
    rw [loopDrawChar_eq h]
    have := ih (s := s.setFb (drawGlyph s s.fb b.toNat x y fg bg)) (drawGrid_shape h _ _ _ _ _) (x+1)
    rw [drawGlyphs_setFb] at this
    rw [drawGlyphs]
    push_cast
    simp only [show ∀ i : Int, x + (i + 1) = x + 1 + i by intro i; ring]
    exact this

/-- Drawing tiles reads the tileset, not the framebuffer of the state. -/
theorem drawTiles_setFb (s : State) (v) (fg bg bw bh) (l : List (Byte × Int × Int)) (fb) :
   drawTiles (s.setFb v) fg bg bw bh l fb = drawTiles s fg bg bw bh l fb := by
  induction l generalizing fb with
  | nil => rfl
  | cons b str ih => simp [drawTiles, ih, drawBi, cell]

theorem drawBi_shape {s : State} {fb w h} (hs : Shape fb w h) (t fg bg x0 y0 bw bh) : Shape (drawBi s fb t fg bg x0 y0 bw bh) w h :=
  drawGrid_shape hs _ _ _ _ _

/-- The loop of R76. -/
theorem loopDrawString_eq {s} (h : Sh s) (str fg bg) (w hh : Int) (bw bh : Nat) (hb : 0 < bw) (hbh : 0 < bh) (px py : Int) :
   loopDrawString fg bg w hh bw bh px py str s = s.setFb (drawTiles s fg bg bw bh (layout s.cfg.screenW w hh px py str) s.fb) := by
  induction str generalizing s px py with
  | nil => rfl
  | cons b str ih =>
    rw [loopDrawString, layout]
    have key (px py : Int) : loopDrawString fg bg w hh bw bh (px + w) py str (loopDrawBi b.toNat fg bg px py bw bh s) =
        s.setFb (drawTiles s fg bg bw bh ((b, px, py) :: layout s.cfg.screenW w hh (px + w) py str) s.fb) := by
      have hs : Sh (s.setFb (drawBi s s.fb b.toNat fg bg px py bw bh)) := drawBi_shape h _ _ _ _ _ _ _
      rw [loopDrawBi_eq h _ _ _ _ _ _ _ hb hbh, ih hs, drawTiles_setFb, drawTiles]
      simp only [State.setFb]
    by_cases hw : px + w > s.cfg.screenW
    · simp only [hw, decide_true, if_true]
      rw [key, zero_add]
    · simp only [hw, decide_false, if_false, Bool.false_eq_true]
      exact key px py

end Sys2Proof.Laws
end

