-- ==== Sys2Proof/Laws/PerInstr.lean ====
section
/-! SUPPORT. The family `Encoding`: the words of a well-formed command begin with a legal header of its own operation
and are as many as that header says (30_encoding.md R45, R46, R47). -/

namespace Sys2Proof.Laws.Encoding

/-- The first word of `encode i` is a legal header of `i`'s operation, and `Len` of it is the number of words. -/
def Statement (i : Instr) : Prop :=
  i.wf = true → readHeader ((encode i).headD 0#32) = .ok i.opcode ∧ (encode i).length = headerLen ((encode i).headD 0#32)

/-- A command that carries no payload: one fact about its header and its number of operands. -/
theorem of_plain {i : Instr} {a x : Bool} {ws : List Word} (hi : encode i = makeHeader i.opcode a x 0 :: ws)
    (hf : flagsLegal i.opcode (makeHeader i.opcode a x 0) = true) (hp : i.opcode.hasPayload = false)
    (hn : ws.length = i.opcode.nops) : Statement i := by
  intro _
  have hr := readHeader_makeHeader hf
  simp [hi, hr, headerLen, bodyWords, hp, hn]
  omega

/-- A command that carries a payload of its string's length. -/
theorem of_payload {i : Instr} {str : List Byte} {ws : List Word}
    (hi : encode i = makeHeader i.opcode false false str.length :: (ws ++ packBytes str))
    (hp : i.opcode.hasPayload = true) (hn : ws.length = i.opcode.nops) (hl : i.wf = true → str.length ≤ 65535) :
    Statement i := by
  intro hw
  have hc : str.length % 65536 = str.length := Nat.mod_eq_of_lt (by have := hl hw; omega)
  have hr : readHeader (makeHeader i.opcode false false str.length) = .ok i.opcode :=
    readHeader_makeHeader (by simp [flagsLegal, hp])
  simp [hi, hr, headerLen, bodyWords, hp, hn, hc]
  omega

theorem clear (c : Word) : Statement (.clear c) := of_plain rfl (by simp [flagsLegal, Instr.opcode]) rfl rfl

theorem setPixel (x y c : Word) : Statement (.setPixel x y c) := of_plain rfl (by simp [flagsLegal, Instr.opcode]) rfl rfl

theorem present : Statement .present := of_plain rfl (by simp [flagsLegal, Instr.opcode]) rfl rfl

theorem drawChar (g x y fg bg : Word) : Statement (.drawChar g x y fg bg) := of_plain rfl (by simp [flagsLegal, Instr.opcode]) rfl rfl

theorem setGlyph (g a b : Word) : Statement (.setGlyph g a b) := of_plain rfl (by simp [flagsLegal, Instr.opcode]) rfl rfl

theorem loadCharset : Statement .loadCharset := of_plain rfl (by simp [flagsLegal, Instr.opcode]) rfl rfl

theorem saveCharset : Statement .saveCharset := of_plain rfl (by simp [flagsLegal, Instr.opcode]) rfl rfl

theorem clearTile (t : Word) : Statement (.clearTile t) := of_plain rfl (by simp [flagsLegal, Instr.opcode]) rfl rfl

theorem invertTile (t : Word) : Statement (.invertTile t) := of_plain rfl (by simp [flagsLegal, Instr.opcode]) rfl rfl

theorem setTileCell (t k v : Word) : Statement (.setTileCell t k v) := of_plain rfl (by simp [flagsLegal, Instr.opcode]) rfl rfl

theorem getTileCell (t k : Word) : Statement (.getTileCell t k) := of_plain rfl (by simp [flagsLegal, Instr.opcode]) rfl rfl

theorem genTileset : Statement .genTileset := of_plain rfl (by simp [flagsLegal, Instr.opcode]) rfl rfl

theorem loadTileset : Statement .loadTileset := of_plain rfl (by simp [flagsLegal, Instr.opcode]) rfl rfl

theorem saveTileset : Statement .saveTileset := of_plain rfl (by simp [flagsLegal, Instr.opcode]) rfl rfl

theorem setColorRgb (i v : Word) : Statement (.setColorRgb i v) := of_plain rfl (by simp [flagsLegal, Instr.opcode]) rfl rfl

theorem setColorRaw (i v : Word) : Statement (.setColorRaw i v) := of_plain rfl (by simp [flagsLegal, Instr.opcode]) rfl rfl

theorem getColor (i : Word) : Statement (.getColor i) := of_plain rfl (by simp [flagsLegal, Instr.opcode]) rfl rfl

theorem genPalette : Statement .genPalette := of_plain rfl (by simp [flagsLegal, Instr.opcode]) rfl rfl

theorem loadPalette : Statement .loadPalette := of_plain rfl (by simp [flagsLegal, Instr.opcode]) rfl rfl

theorem savePalette : Statement .savePalette := of_plain rfl (by simp [flagsLegal, Instr.opcode]) rfl rfl

theorem drawTile (align : Bool) (t fg bg x y w h : Word) : Statement (.drawTile align t fg bg x y w h) :=
  of_plain rfl (by simp [flagsLegal, Instr.opcode]) rfl rfl

theorem drawTileMc (align indexed : Bool) (t x y w h : Word) : Statement (.drawTileMc align indexed t x y w h) :=
  of_plain rfl (by simp [flagsLegal, Instr.opcode]) rfl rfl

theorem print (x y fg bg : Word) (str : List Byte) : Statement (.print x y fg bg str) :=
  of_payload (ws := [x, y, fg, bg]) rfl rfl rfl fun h => by simpa [Instr.wf] using h

theorem drawString (x y fg bg w h : Word) (str : List Byte) : Statement (.drawString x y fg bg w h str) :=
  of_payload (ws := [x, y, fg, bg, w, h]) rfl rfl rfl fun h => by simpa [Instr.wf] using h

theorem setTile (t : Word) (chars : List Byte) : Statement (.setTile t chars) := by
  intro hw
  have hl : chars.length = 64 := by simpa [Instr.wf] using hw
  refine of_plain (ws := t :: packBytes chars) rfl (by simp [flagsLegal, Instr.opcode]) rfl ?_ hw
  simp [hl, payloadWords, Instr.opcode, Opcode.nops]

end Sys2Proof.Laws.Encoding
end

