-- ==== Sys2Proof/Tests/Slice0.lean ====
section
/-! SUPPORT. Tests. Expected values are those of spec/95_test_vectors.md and of the examples of the rules named beside
them. -/

namespace Sys2Proof.Tests

open Sys2Proof.Machine

set_option Elab.async false

/-- An instance with another screen size, after reset. -/
def sized (w h : Nat) : State := State.resetOf { Config.standard with screenW := w, screenH := h } 0

/-- The state a command leaves. -/
def after (i : Instr) (s : State) : State :=
  match exec i s with
  | .next t => t
  | .fault _ => s
  | .refused _ => s

/-- The state one step leaves, with these words pushed first. -/
def stepOn (ws : List Word) (s : State) : State :=
  match step (pushWords s ws) with
  | .next t => t
  | .fault _ => s
  | .refused _ => s

/-- The three fault registers. -/
def faultRegs (s : State) : Word × Word × Word := (s.fstat, s.fcode, s.finfo)

/-- The rows 18 3C 66 66 7E 66 66 00 of 41_font.md R60, given to glyph 65. -/
def withGlyphA (s : State) : State := after (.setGlyph 65#32 0x66663C18#32 0x0066667E#32) s

/-- The payload words of the smiley of 42_tiles.md R64. -/
def smileyWords : List Word :=
  [0x31313130, 0x30313131, 0x30303031, 0x31303030, 0x30313031, 0x31303130, 0x30303031, 0x31303030,
    0x31313031, 0x31303131, 0x31303031, 0x31303031, 0x30303031, 0x31303030, 0x31313130, 0x30313131]

/-- The 64 characters of the smiley, row by row, '0' and '1'. -/
def smileyChars : List Byte := unpackBytes smileyWords

/-- Every pixel of the screen, row by row. -/
def pixels (s : State) : List Word := s.fb.flatten

/-- How many pixels hold `c`. -/
def count (c : Word) (s : State) : Nat := (pixels s).count c

/-- An instance of this size after reset and `CLEAR c`. -/
def cleared (w h : Nat) (c : Word) : State := after (.clear c) (sized w h)

/-- Tile `t` after `SETTILE` with 64 characters '1'. -/
def withOnTile (t : Word) (s : State) : State := after (.setTile t (List.replicate 64 0x31#8)) s

/-- Glyph `g` with eight rows `0xFF`. -/
def withFullGlyph (g : Word) (s : State) : State := after (.setGlyph g 0xFFFFFFFF#32 0xFFFFFFFF#32) s

/-- The 64 characters of eight rows "01 01 01" (vector T3). -/
def threeStateChars : List Byte :=
  (List.replicate 8 [0x30#8, 0x31#8, 0x20#8, 0x30#8, 0x31#8, 0x20#8, 0x30#8, 0x31#8]).flatten

/-- Row 0 of tile `t`. -/
def tileRow0 (s : State) (t : Nat) : List Word := (List.range 8).map (cell s t)

/-! ### Well-formedness: one ill-formed term for each check, refused -/

theorem test_wf_print_length : Instr.wf (.print 0#32 0#32 1#32 0#32 (List.replicate 65536 0x41#8)) = false := by
  rw [Instr.wf, List.length_replicate]
  rfl

theorem test_wf_drawString_length :
    Instr.wf (.drawString 0#32 0#32 1#32 0#32 8#32 8#32 (List.replicate 65536 0x41#8)) = false := by
  rw [Instr.wf, List.length_replicate]
  rfl

theorem test_wf_setTile_length : Instr.wf (.setTile 0#32 (List.replicate 63 0x30#8)) = false := by decide

/-! ### Decoding: words written out from 30_encoding.md R42 to R46, every constructor -/

theorem test_decode_clear : decode [0x00000001, 0x00000011] = .command (.clear 0x11#32) [] := by decide
theorem test_decode_setPixel : decode [0x00000002, 0x00000003, 0xFFFFFFFF, 0x00FF0000]
    = .command (.setPixel 3#32 0xFFFFFFFF#32 0x00FF0000#32) [] := by decide
theorem test_decode_present : decode [0x00000003, 0x00000001] = .command .present [0x00000001] := by decide
theorem test_decode_drawChar : decode [0x00000010, 0x00000041, 0x00000001, 0x00000002, 0x00FFFFFF, 0x00000000]
    = .command (.drawChar 0x41#32 1#32 2#32 0x00FFFFFF#32 0#32) [] := by decide
theorem test_decode_print : decode [0x00050011, 0x00000000, 0x00000004, 0x00000001, 0x00000002, 0x43420041, 0x00000044]
    = .command (.print 0#32 4#32 1#32 2#32 [0x41#8, 0x00#8, 0x42#8, 0x43#8, 0x44#8]) [] := by decide +kernel
theorem test_decode_setGlyph : decode [0x00000012, 0x00000041, 0x66663C18, 0x0066667E]
    = .command (.setGlyph 65#32 0x66663C18#32 0x0066667E#32) [] := by decide
theorem test_decode_loadCharset : decode [0x00000013] = .command .loadCharset [] := by decide
theorem test_decode_saveCharset : decode [0x00000014] = .command .saveCharset [] := by decide
/-- The smiley of S5; its first row is the characters 0 1 1 1 1 1 1 0. -/
theorem test_decode_setTile : decode (0x00000020 :: 0x00000001 :: smileyWords) = .command (.setTile 1#32 smileyChars) [] ∧
    smileyChars.take 8 = [0x30#8, 0x31#8, 0x31#8, 0x31#8, 0x31#8, 0x31#8, 0x31#8, 0x30#8] := by decide +kernel
theorem test_decode_clearTile : decode [0x00000021, 0x000002FF] = .command (.clearTile 767#32) [] := by decide
theorem test_decode_invertTile : decode [0x00000022, 0x00000004] = .command (.invertTile 4#32) [] := by decide
theorem test_decode_setTileCell : decode [0x00000023, 0x00000004, 0x0000003F, 0x00000007]
    = .command (.setTileCell 4#32 63#32 7#32) [] := by decide
theorem test_decode_getTileCell : decode [0x00000024, 0x000002FF, 0x0000003F] = .command (.getTileCell 767#32 63#32) [] := by
  decide
theorem test_decode_drawTile : decode [0x00000125, 0x00000001, 0x00000005, 0x00000006, 0x00000011, 0x00000009, 0x00000010,
    0x00000008] = .command (.drawTile true 1#32 5#32 6#32 17#32 9#32 16#32 8#32) [] := by decide
theorem test_decode_drawTileMc : decode [0x00000226, 0x00000002, 0x00000001, 0x00000003, 0x00000008, 0x00000009]
    = .command (.drawTileMc false true 2#32 1#32 3#32 8#32 9#32) [] := by decide
theorem test_decode_drawTileMc_both : decode [0x00000326, 0x00000006, 0x00000009, 0x0000000A, 0x00000008, 0x00000010]
    = .command (.drawTileMc true true 6#32 9#32 10#32 8#32 16#32) [] := by decide
theorem test_decode_drawString : decode [0x00020027, 0x00000000, 0x00000001, 0x00FFFFFF, 0x00000002, 0x00000008, 0x00000009,
    0x00004241] = .command (.drawString 0#32 1#32 0x00FFFFFF#32 2#32 8#32 9#32 [0x41#8, 0x42#8]) [] := by decide +kernel
theorem test_decode_genTileset : decode [0x00000028] = .command .genTileset [] := by decide
theorem test_decode_loadTileset : decode [0x00000029] = .command .loadTileset [] := by decide
theorem test_decode_saveTileset : decode [0x0000002A] = .command .saveTileset [] := by decide
theorem test_decode_setColorRgb : decode [0x00000030, 0x00000001, 0x00FF0000]
    = .command (.setColorRgb 1#32 0x00FF0000#32) [] := by decide
theorem test_decode_setColorRaw : decode [0x00000031, 0x000000FF, 0x80112233]
    = .command (.setColorRaw 255#32 0x80112233#32) [] := by decide
theorem test_decode_getColor : decode [0x00000032, 0x80000000] = .command (.getColor 0x80000000#32) [] := by decide
theorem test_decode_genPalette : decode [0x00000033] = .command .genPalette [] := by decide
theorem test_decode_loadPalette : decode [0x00000034] = .command .loadPalette [] := by decide
theorem test_decode_savePalette : decode [0x00000035] = .command .savePalette [] := by decide

/-- The lengths of E3. -/
theorem test_lengths : [0x00000003#32, 0x00000001#32, 0x00000020#32, 0x00000025#32, 0x00000011#32, 0x00010011#32,
    0x00040011#32, 0x00050011#32, 0xFFFF0027#32].map headerLen = [1, 2, 18, 8, 5, 6, 6, 7, 16391] := by decide +kernel

/-- The illegal words of the decoder's table, and what is recorded of each. -/
theorem test_illegal_words : [0x00000000#32, 0xFFFFFFFF#32, 0x00000004#32, 0x00000015#32, 0x0000002B#32, 0x00000036#32,
    0x00000110#32, 0x00010001#32, 0x00000425#32, 0x00000225#32, 0x00008001#32].map (fun h => faultRegs (stepOn [h] (sized 1 1)))
    = [(0x8#32, 0x00000104#32, 0x00000000#32), (0x8#32, 0x00FF0104#32, 0xFFFFFFFF#32), (0x8#32, 0x00040104#32, 0x00000004#32),
      (0x8#32, 0x00150104#32, 0x00000015#32), (0x8#32, 0x002B0104#32, 0x0000002B#32), (0x8#32, 0x00360104#32, 0x00000036#32),
      (0x8#32, 0x00100204#32, 0x00000110#32), (0x8#32, 0x00010204#32, 0x00010001#32), (0x8#32, 0x00250204#32, 0x00000425#32),
      (0x8#32, 0x00250204#32, 0x00000225#32), (0x8#32, 0x00010204#32, 0x00008001#32)] := by decide +kernel

/-- E1: an illegal `CLEAR` is consumed alone, and its operand is the next header. -/
theorem test_resynchronise : (stepOn [0x00010001, 0x00000003] (sized 1 1)).stream = [0x00000003] := by decide +kernel

/-- E2: a short `DRAWCHAR`, a legal header alone and a `PRINT` one word short hold. -/
theorem test_hold : decode [0x00000010, 0x00000001, 0x00000002] = .hold ∧ decode [0x00000126] = .hold ∧
    decode [0x00050011, 0, 0, 1, 0, 0x41414141] = .hold := by decide +kernel

/-! ### The two functions the opcode table is read with -/

/-- `SETCOLORRAW 255, 0x80112233` numbered with the header in the low 32 bits; `SETTILE` with operand words of zeros. -/
theorem test_decodeTableWord : decodeTableWord 96 0x80112233000000FF00000031 = some (.setColorRaw 255#32 0x80112233#32) ∧
    decodeTableWord 32 0x20 = some (.setTile 0#32 (List.replicate 64 0#8)) ∧ decodeTableWord 32 0x00 = none := by decide +kernel

theorem test_withFetchWord :
    (let s := stepOn [] (State.reset.withFetchWord 96 0x80112233000000FF00000031)
    (color s 255, s.stream, faultRegs s) = (0x80112233#32, [], (0#32, 0#32, 0#32))) := by decide +kernel

/-! ### Framebuffer control: B1 to B10 -/

theorem test_clear : pixels (cleared 4 3 0x80112233#32) = List.replicate 12 0x80112233#32 := by decide +kernel
/-- B2: the last pixel, and nothing else. -/
theorem test_setPixel_last : pixels (after (.setPixel 3#32 2#32 0xAB#32) (cleared 4 3 0x11#32))
    = List.replicate 11 0x11#32 ++ [0xAB#32] := by decide +kernel
/-- B3 to B8: each off the screen, each completes with nothing changed. -/
theorem test_setPixel_clipped : [(4#32, 0#32), (0#32, 3#32), (0xFFFFFFFF#32, 0#32), (0#32, 0xFFFFFFFF#32),
    (0x80000000#32, 0#32), (0x7FFFFFFF#32, 0x7FFFFFFF#32)].map
      (fun p : Word × Word => count 0x11#32 (after (.setPixel p.1 p.2 0xAB#32) (cleared 4 3 0x11#32))) = List.replicate 6 12 := by
  decide +kernel
/-- B9, both row orders. -/
theorem test_present : (after .present ((sized 2 2).setFb [[0xA, 0xB], [0xC, 0xD]])).display = [0xA, 0xB, 0xC, 0xD] := by
  decide +kernel
theorem test_present_bottomUp :
    (after .present { (sized 2 2).setFb [[0xA, 0xB], [0xC, 0xD]] with
      cfg := { Config.standard with screenW := 2, screenH := 2, rowOrder := .bottomUp } }).display = [0xC, 0xD, 0xA, 0xB] := by
  decide +kernel

/-! ### Font: F1 to F11 -/

/-- F1: rows 0, 1, 5 and 6 of the cell, and a pixel outside it. -/
theorem test_drawChar :
    (let s := after (.drawChar 7#32 0#32 0#32 1#32 0#32) (after (.setGlyph 7#32 0x00FF0180#32 0x00A55AFF#32) (cleared 16 16 0x55#32))
    ([0, 1, 5, 6].map fun y => ((List.range 9).map fun x => (pixel s x y).toNat)) =
      [[1, 0, 0, 0, 0, 0, 0, 0, 0x55], [0, 0, 0, 0, 0, 0, 0, 1, 0x55], [0, 1, 0, 1, 1, 0, 1, 0, 0x55],
        [1, 0, 1, 0, 0, 1, 0, 1, 0x55]]) := by decide +kernel
/-- F3, F4 and F5: a cell over the right edge, left of the screen, at pixel column 2^31; and no glyph 256. -/
theorem test_drawChar_clipped :
    (let s := withFullGlyph 1#32 (cleared 12 8 9#32)
    count 7#32 (after (.drawChar 1#32 1#32 0#32 7#32 3#32) s) = 32 ∧
    pixels (after (.drawChar 1#32 0xFFFFFFFF#32 0#32 7#32 3#32) s) = List.replicate 96 9#32 ∧
    pixels (after (.drawChar 1#32 0x10000000#32 0#32 7#32 3#32) s) = List.replicate 96 9#32 ∧
    faultRegs (after (.drawChar 256#32 0#32 0#32 7#32 3#32) s) = (0x2#32, 0x00100102#32, 0x100#32)) := by decide +kernel
/-- F6: `PRINT` stops at the NUL of "A\0BCD". -/
theorem test_print_nul :
    (let s := after (.print 0#32 0#32 1#32 0#32 [0x41#8, 0x00#8, 0x42#8, 0x43#8, 0x44#8])
      (withFullGlyph 0x42#32 (withFullGlyph 0x41#32 (cleared 48 8 9#32)))
    (pixel s 7 7, pixel s 8 0, count 1#32 s) = (1#32, 9#32, 64)) := by decide +kernel
/-- F7: "ABC" in cells 4, 5 and 6 of a screen six cells wide: the third is clipped, nothing wraps. -/
theorem test_print_edge :
    (let s := after (.print 4#32 0#32 1#32 0#32 [0x41#8, 0x42#8, 0x43#8])
      (withFullGlyph 0x43#32 (withFullGlyph 0x42#32 (withFullGlyph 0x41#32 (cleared 48 8 9#32))))
    (pixel s 31 0, pixel s 32 0, pixel s 47 7, count 1#32 s) = (9#32, 1#32, 1#32, 128)) := by decide +kernel
theorem test_setGlyph : (withGlyphA (sized 1 1)).charset.getD 65 [] = [0x18#8, 0x3C#8, 0x66#8, 0x66#8, 0x7E#8, 0x66#8, 0x66#8, 0x00#8] := by
  decide +kernel
/-- F5. -/
theorem test_setGlyph_fault : faultRegs (after (.setGlyph 256#32 0#32 0#32) (sized 1 1)) = (0x2#32, 0x00120102#32, 0x100#32) := by
  decide +kernel
/-- R61's example: `CHARSET[g][r] = (8*g + r) mod 256`. -/
theorem test_loadCharset :
    (let s := after .loadCharset (bindSource (sized 1 1) (.bytes ((List.range 2048).map (BitVec.ofNat 8))))
    (charRow s 0 0, charRow s 31 7, charRow s 32 0, charRow s 255 6) = (0#8, 0xFF#8, 0#8, 0xFE#8)) := by decide +kernel
/-- F11: offsets 519 to 527 of the block. -/
theorem test_saveCharset :
    (match (after .saveCharset (bindSink (withGlyphA (sized 1 1)) .accepts)).sunk with
      | [.block b] => b.length == 2048 && (b.drop 519).take 9 == [0#8, 0x18#8, 0x3C#8, 0x66#8, 0x66#8, 0x7E#8, 0x66#8, 0x66#8, 0#8]
      | _ => false) = true := by decide +kernel

/-! ### Tile data: T1 to T9 -/

/-- S5's row 0 in the table. -/
theorem test_setTile : tileRow0 (after (.setTile 1#32 smileyChars) (sized 1 1)) 1
    = [0#32, 1#32, 1#32, 1#32, 1#32, 1#32, 1#32, 0#32] := by decide +kernel
/-- T1 and T2: the position of the bad character; the index before the characters. -/
theorem test_setTile_faults : faultRegs (after (.setTile 3#32 (List.replicate 10 0x30#8 ++ 0x32#8 :: List.replicate 53 0x30#8)) (sized 1 1))
      = (0x4#32, 0x00200103#32, 0xA#32) ∧
    faultRegs (after (.setTile 768#32 (List.replicate 64 0x32#8)) (sized 1 1)) = (0x2#32, 0x00200202#32, 0x300#32) := by decide +kernel
/-- T2. -/
theorem test_clearTile : tileRow0 (after (.clearTile 767#32) (withOnTile 767#32 (sized 1 1))) 767 = List.replicate 8 0#32 ∧
    faultRegs (after (.clearTile 768#32) (sized 1 1)) = (0x2#32, 0x00210202#32, 0x300#32) := by decide +kernel
/-- T3 and T4. -/
theorem test_invertTile : tileRow0 (after (.invertTile 4#32) (after (.setTile 4#32 threeStateChars) (sized 1 1))) 4
    = [1#32, 0#32, 2#32, 1#32, 0#32, 2#32, 1#32, 0#32] := by decide +kernel
/-- T5: cell 63 of tile 4 is no bicolor cell. -/
theorem test_invertTile_fault :
    faultRegs (after (.invertTile 4#32) (after (.setTileCell 4#32 63#32 7#32) (after (.setTile 4#32 threeStateChars) (sized 1 1))))
      = (0x4#32, 0x00220203#32, 0x13F#32) := by decide +kernel
/-- R67's example: row 1, column 1 of tile 2. -/
theorem test_setTileCell : cell (after (.setTileCell 2#32 9#32 0x00FF00FF#32) (sized 1 1)) 2 9 = 0x00FF00FF#32 := by decide +kernel
/-- T6. -/
theorem test_setTileCell_faults : faultRegs (after (.setTileCell 4#32 64#32 7#32) (sized 1 1)) = (0x2#32, 0x00230402#32, 0x40#32) ∧
    faultRegs (after (.setTileCell 768#32 64#32 7#32) (sized 1 1)) = (0x2#32, 0x00230202#32, 0x300#32) := by decide +kernel
/-- T7. -/
theorem test_getTileCell : (after (.getTileCell 767#32 63#32) (after (.setTileCell 767#32 63#32 0xDEADBEEF#32) (sized 1 1))).result
    = 0xDEADBEEF#32 := by decide +kernel
theorem test_getTileCell_fault : faultRegs (after (.getTileCell 767#32 64#32) (sized 1 1)) = (0x2#32, 0x00240402#32, 0x40#32) := by
  decide +kernel
/-- T9: whatever the default tileset is. -/
theorem test_genTileset (s : State) : (after (.getTileCell 700#32 5#32) (after .genTileset s)).result
    = (s.cfg.defaultTileset.getD 700 []).getD 5 0#32 := rfl
/-- R70's example, a block that begins 02 00 00 00, and T8's EF CD AB 00; and the source that ends early. -/
theorem test_loadTileset : ((tilesetOfBlock [0x02#8, 0#8, 0#8, 0#8, 0xEF#8, 0xCD#8, 0xAB#8, 0#8]).getD 0 []).take 2 = [2#32, 0x00ABCDEF#32] ∧
    faultRegs (after .loadTileset (bindSource (sized 1 1) .unreadable)) = (0x1#32, 0x00290201#32, 0#32) := by decide +kernel
/-- T8, offsets 0 to 7. -/
theorem test_saveTileset :
    (match (after .saveTileset (bindSink (after (.setTileCell 0#32 1#32 0x00ABCDEF#32) (sized 1 1)) .accepts)).sunk with
      | [.block b] => b.take 8 == [0#8, 0#8, 0#8, 0#8, 0xEF#8, 0xCD#8, 0xAB#8, 0x00#8]
      | _ => false) = true := by decide +kernel

/-! ### Tile drawing: G1 to G12 -/

/-- G1. -/
theorem test_blockSize : [7, 8, 12, 15, 16, 17, 64, 0, -8, -16].map blockSize = [0, 1, 1, 1, 2, 2, 8, 0, -1, -2] := by decide +kernel
/-- G2. -/
theorem test_origin : [(17, 16), (15, 16), (16, 16), (0, 16), (-1, 16), (-16, 16), (-17, 16), (9, 8), (23, 12), (31, 17)].map
    (fun p : Int × Int => origin true p.1 p.2) = [16, 0, 16, 0, -16, -16, -32, 8, 12, 17] := by decide +kernel
/-- G3, G4, G5, G6, G7: how many pixels are painted. -/
theorem test_drawTile_counts :
    (let s := withOnTile 1#32 (cleared 32 32 9#32)
    [(0#32, 0#32, 0xC#32), (0#32, 0#32, 7#32), (0#32, 0#32, 0xFFFFFFF0#32), (30#32, 30#32, 8#32), (0xFFFFFFFC#32, 0xFFFFFFFC#32, 8#32)].map
      (fun p => count 5#32 (after (.drawTile false 1#32 5#32 6#32 p.1 p.2.1 p.2.2 8#32) s)) = [64, 0, 0, 4, 16]) := by decide +kernel
/-- G8 and G9. -/
theorem test_drawTile_align :
    (let s := withOnTile 1#32 (cleared 32 32 9#32)
    let t := after (.drawTile true 1#32 5#32 6#32 17#32 9#32 16#32 8#32) s
    (count 5#32 t, pixel t 16 8, pixel t 31 15, pixel t 15 8) = (128, 5#32, 5#32, 9#32) ∧
    count 9#32 (after (.drawTile true 1#32 5#32 6#32 0xFFFFFFFF#32 0xFFFFFFFF#32 16#32 16#32) s) = 1024) := by decide +kernel
/-- G10 (a) and (c): direct and indexed colours of cells 0 and 9. -/
theorem test_drawTileMc :
    (let s := after (.setTileCell 6#32 0#32 2#32) (after (.setColorRaw 2#32 0xAABBCCDD#32) (cleared 16 16 9#32))
    let a := after (.drawTileMc false false 6#32 0#32 0#32 8#32 8#32) (after (.setTileCell 6#32 9#32 0x00FF00FF#32) s)
    let c := after (.drawTileMc false true 6#32 0#32 0#32 8#32 8#32) (after (.setTileCell 6#32 9#32 255#32) s)
    (pixel a 0 0, pixel a 1 1, pixel a 2 0, pixel a 8 0) = (2#32, 0x00FF00FF#32, 0#32, 9#32) ∧
    (pixel c 0 0, pixel c 1 1) = (0xAABBCCDD#32, 0#32)) := by decide +kernel
/-- G10 (b), (e), (f): the checks come before the empty size. -/
theorem test_drawTileMc_faults :
    (let s := after (.setTileCell 6#32 9#32 256#32) (sized 1 1)
    faultRegs (after (.drawTileMc false true 6#32 0#32 0#32 0#32 0#32) s) = (0x2#32, 0x00260302#32, 0x100#32) ∧
    faultRegs (after (.drawTileMc false true 768#32 0#32 0#32 8#32 8#32) s) = (0x2#32, 0x00260202#32, 0x300#32) ∧
    faultRegs (after (.drawTileMc false false 6#32 0#32 0#32 0#32 0#32) s) = (0#32, 0#32, 0#32)) := by decide +kernel
/-- S6: at width 16 the second tile is drawn at (8, 0), at width 8 at (0, 8). -/
theorem test_drawString_wrap : layout 16 8 8 0 0 [0x41#8, 0x42#8] = [(0x41#8, 0, 0), (0x42#8, 8, 0)] ∧
    layout 8 8 8 0 0 [0x41#8, 0x42#8] = [(0x41#8, 0, 0), (0x42#8, 0, 8)] ∧
    layout 320 8 8 312 0 [0x41#8, 0x41#8] = [(0x41#8, 312, 0), (0x41#8, 0, 8)] ∧
    layout 320 8 8 313 0 [0x41#8, 0x41#8] = [(0x41#8, 0, 8), (0x41#8, 8, 8)] ∧
    layout 320 400 8 0 0 [0x41#8, 0x41#8] = [(0x41#8, 0, 8), (0x41#8, 0, 16)] ∧
    layout 320 8 8 (-8) 0 [0x41#8, 0x41#8] = [(0x41#8, -8, 0), (0x41#8, 0, 0)] := by decide +kernel
/-- G12: a bad tile anywhere in the string, drawn part or not; behind the NUL it is never looked at. -/
theorem test_drawString_check :
    (let s := after (.setTileCell 0x42#32 5#32 9#32) (withOnTile 0x41#32 (cleared 16 8 9#32))
    let t := after (.drawString 0#32 0#32 5#32 6#32 8#32 8#32 [0x41#8, 0x42#8]) s
    let u := after (.drawString 0#32 0#32 5#32 6#32 8#32 8#32 [0x41#8, 0x00#8, 0x42#8]) s
    faultRegs t = (0x4#32, 0x00270203#32, 0x1085#32) ∧ count 5#32 t = 0 ∧ count 5#32 u = 64) := by decide +kernel

/-! ### Palette: C1 to C12 -/

/-- C1. -/
theorem test_setColorRgb : color (after (.setColorRgb 1#32 0x00FF0000#32) (sized 1 1)) 1 = 0x00FF0000#32 := by decide +kernel
/-- C2, C3, C4. -/
theorem test_setColorRgb_faults : faultRegs (after (.setColorRgb 1#32 0x01FF0000#32) (sized 1 1)) = (0x8#32, 0x00300304#32, 0x01FF0000#32) ∧
    faultRegs (after (.setColorRgb 256#32 0x01FF0000#32) (sized 1 1)) = (0x8#32, 0x00300304#32, 0x01FF0000#32) ∧
    faultRegs (after (.setColorRgb 256#32 0#32) (after (.setColorRgb 1#32 0x01FF0000#32) (sized 1 1))) = (0xA#32, 0x00300302#32, 0x100#32) := by
  decide +kernel
/-- C5 and C7. -/
theorem test_setColorRaw : (after (.getColor 255#32) (after (.setColorRaw 255#32 0x80112233#32) (sized 1 1))).result = 0x80112233#32 := by
  decide +kernel
/-- C6. -/
theorem test_setColorRaw_fault : faultRegs (after (.setColorRaw 256#32 0#32) (sized 1 1)) = (0x2#32, 0x00310302#32, 0x100#32) := by
  decide +kernel
/-- C8. -/
theorem test_getColor_fault : faultRegs (after (.getColor 0x80000000#32) (sized 1 1)) = (0x2#32, 0x00320302#32, 0x80000000#32) := by
  decide +kernel
/-- R81's example: `GENPALETTE; SETCOLORRAW 0, 5; GENPALETTE; GETCOLOR 0`. -/
theorem test_genPalette (s : State) :
    (after (.getColor 0#32) (after .genPalette (after (.setColorRaw 0#32 5#32) (after .genPalette s)))).result
      = s.cfg.defaultPalette.getD 0 0#32 := rfl
/-- C12. -/
theorem test_loadPalette :
    (let s := after .loadPalette (bindSource (sized 1 1) (.bytes ([0#8, 0#8, 0xFF#8, 0#8] ++ List.replicate 1020 0#8)))
    s.pal = 0x00FF0000#32 :: List.replicate 255 0#32) := by decide +kernel
/-- C11, and P6's `fail(2)`; a source one byte short fails the same way. -/
theorem test_load_faults : [Source.unopenable, .unreadable, .bytes (List.replicate 1023 0xFF#8)].map
      (fun src => faultRegs (after .loadPalette (bindSource (sized 1 1) src)))
    = [(0x1#32, 0x00340101#32, 0#32), (0x1#32, 0x00340201#32, 0#32), (0x1#32, 0x00340201#32, 0#32)] := by decide +kernel
/-- C9. -/
theorem test_savePalette :
    (match (after .savePalette (bindSink (after (.setColorRaw 255#32 0x80112233#32)
        (after (.setColorRgb 1#32 0x00FF0000#32) (sized 1 1))) .accepts)).sunk with
      | [.block b] => b == List.replicate 4 0#8 ++ [0#8, 0#8, 0xFF#8, 0#8] ++ List.replicate 1012 0#8 ++ [0x33#8, 0x22#8, 0x11#8, 0x80#8]
      | _ => false) = true := by decide +kernel
/-- C10. -/
theorem test_save_fault : faultRegs (after .savePalette (bindSink (sized 1 1) .unwritable)) = (0x1#32, 0x00350301#32, 0#32) := by
  decide +kernel

/-! ### Reset and the register port -/

theorem test_registers : (List.range 8).map (readReg State.reset) = [320#32, 240#32, 0#32, 0#32, 0#32, 0#32, 0#32, 0#32] := by
  decide +kernel

/-- R95: reset discards a partly received command and zeroes what it zeroes. -/
theorem test_applyReset :
    (let s := applyReset (pushWords (after (.drawChar 256#32 0#32 0#32 7#32 3#32) (withGlyphA (sized 4 3))) [0x10, 1])
    (s.stream, faultRegs s, charRow s 65 0, s.cfg.screenW) = ([], (0#32, 0#32, 0#32), 0#8, 4)) := by decide +kernel

/-! ### Witnesses: states and operands that meet the hypotheses of each statement that has some -/

theorem sized_wf (w h : Nat) : Memory.wf (sized w h) := Laws.resetOf_wf _ _

/-- A tile with a bad cell at position 5, a tile with a bad last cell. -/
def withBadTiles : State := after (.setTileCell 4#32 63#32 7#32) (after (.setTileCell 3#32 5#32 7#32) (sized 4 3))

theorem withBadTiles_wf : Memory.wf withBadTiles :=
  Laws.setCell_wf (Laws.setCell_wf (sized_wf 4 3) (t := 3) (by omega) 5 7#32) (t := 4) (by omega) 63 7#32

theorem witness_DecodeInvertsEncode : Instr.wf (.print 0#32 0#32 1#32 0#32 (List.replicate 65535 0x41#8)) = true ∧
    Instr.wf (.setTile 767#32 (List.replicate 64 0#8)) = true ∧ Instr.wf .present = true := by
  refine ⟨?_, by decide, rfl⟩
  rw [Instr.wf, List.length_replicate]
  rfl

/-- A payload command with a word behind it: its header is one of the two, its body 4 + 1 words. -/
theorem witness_DecodedCommandHasHeaderLength : decode [0x00010011, 0, 0, 1, 0, 0xFFFFFF80, 3]
    = .command (.print 0#32 0#32 1#32 0#32 [0x80#8]) [3] ∧ decode [0x00000003, 1] = .command .present [1] := by decide +kernel

theorem witness_PushedWordsDoNotChangeDecoding : decode [0x00000003, 1] = .command .present [1] ∧
    decode [0x00010001, 3] = .illegal .brokenFlags 0x00010001 [3] := by decide +kernel

theorem witness_StepRunsDecodedCommand : decode (pushWords (sized 4 3) [0x00000003, 1]).stream = .command .present [1] := by
  decide +kernel

/-- An empty stream; five words of six; and one that does not hold, six of six. -/
theorem witness_ShortStreamHolds : (sized 4 3).stream = [] ∧
    (pushWords (sized 4 3) [0x10, 1, 2, 3, 4]).stream.length < headerLen 0x10 ∧
    ¬ (pushWords (sized 4 3) [0x10, 1, 2, 3, 4, 5]).stream.length < headerLen 0x10 := by decide +kernel

/-- Both neighbours of the opcode ranges; each clause of the flag rule; a header that breaks none; the operand. -/
theorem witness_IllegalEncodingsAreRecorded : hdrOpc 0x00 ∉ specOpcodes ∧ hdrOpc 0x04 ∉ specOpcodes ∧
    hdrOpc 0x2B ∉ specOpcodes ∧ hdrOpc 0x36 ∉ specOpcodes ∧
    (hdrOpc 0x110 ∈ specOpcodes ∧ BreaksFlagRule 0x110) ∧ (hdrOpc 0x225 ∈ specOpcodes ∧ BreaksFlagRule 0x225) ∧
    (hdrOpc 0x10001 ∈ specOpcodes ∧ BreaksFlagRule 0x10001) ∧ (hdrOpc 0x8001 ∈ specOpcodes ∧ BreaksFlagRule 0x8001) ∧
    (hdrOpc 0xFFFF0027 ∈ specOpcodes ∧ ¬ BreaksFlagRule 0xFFFF0027) ∧ (0x01FF0000#32).extractLsb' 24 8 ≠ 0#8 := by
  unfold BreaksFlagRule
  refine ⟨?_, ?_, ?_, ?_, ⟨?_, ?_⟩, ⟨?_, ?_⟩, ⟨?_, ?_⟩, ⟨?_, ?_⟩, ⟨?_, ?_⟩, ?_⟩ <;> decide +kernel

theorem witness_NoStepClearsFaultBit : step (pushWords (sized 4 3) [0xFF])
    = .next (takeIllegal (pushWords (sized 4 3) [0xFF]) .reservedOpcode 0xFF []) := rfl

/-- A command that completes and one that records a fault. -/
theorem witness_FaultingCommandHasNoOtherEffect : exec (.clear 1#32) (sized 4 3) = .next (cleared 4 3 1#32) ∧
    exec (.clearTile 768#32) (sized 4 3) = .next (raise (sized 4 3) .clearTile (.tileIndex 768#32)) ∧
    (raise (sized 4 3) .clearTile (.tileIndex 768#32)).fstat = 2#32 := ⟨rfl, rfl, by decide +kernel⟩

/-- The last pixel of the screen, and a point just off it. -/
theorem witness_PutPixelIsClipped : Memory.wf (sized 4 3) ∧ 3 < (sized 4 3).cfg.screenW ∧ 2 < (sized 4 3).cfg.screenH ∧
    ¬ ((0 : Int) ≤ 4 ∧ (4 : Int) < (sized 4 3).cfg.screenW ∧ (0 : Int) ≤ 0 ∧ (0 : Int) < (sized 4 3).cfg.screenH) :=
  ⟨sized_wf 4 3, by decide +kernel⟩

theorem witness_SetPixelWritesOnePixel : Memory.wf (sized 4 3) ∧ 3 < (sized 4 3).cfg.screenW ∧ 2 < (sized 4 3).cfg.screenH :=
  ⟨sized_wf 4 3, by decide +kernel⟩

/-- Both row orders. -/
theorem witness_PresentCopiesEveryPixel : Memory.wf (sized 4 3) ∧
    Memory.wf (State.resetOf { Config.standard with rowOrder := .bottomUp } 0) := ⟨sized_wf 4 3, Laws.resetOf_wf _ _⟩

/-- Also of `SETGLYPH`: the last glyph and the first index out of range. -/
theorem witness_DrawCharIsItsPixelLoop : Memory.wf (sized 4 3) ∧ (255#32).toNat < 256 ∧ 256 ≤ (256#32).toNat :=
  ⟨sized_wf 4 3, by decide⟩

/-- "A\0B" with padding, its effective length 1; a string with no NUL; the empty string. -/
theorem witness_PrintDrawsEachCharacter : Memory.wf (sized 4 3) ∧ IsStrLen [0x41#8, 0x00#8, 0x42#8] 1 ∧
    IsStrLen [0x41#8, 0x42#8] 2 ∧ IsStrLen [] 0 ∧ PayloadSpells [0xFF420041#32] [0x41#8, 0x00#8, 0x42#8] := by
  refine ⟨sized_wf 4 3, ?_, ?_, ?_, ?_⟩ <;> first | unfold IsStrLen | unfold PayloadSpells
  all_goals decide

theorem witness_SetGlyphWritesEightRows : Memory.wf (sized 4 3) ∧ (255#32).toNat < 256 ∧ 256 ≤ (256#32).toNat ∧ 254 ≠ (255#32).toNat :=
  ⟨sized_wf 4 3, by decide⟩

/-- Also of `LOADPALETTE`: each answer of the port; one byte short, exactly enough, and one too many, by length. -/
theorem witness_LoadCharsetReadsBlock : nextSource (bindSource (sized 4 3) .unopenable) = .unopenable ∧
    nextSource (bindSource (sized 4 3) .unreadable) = .unreadable ∧
    ∀ n, nextSource (bindSource (sized 4 3) (.bytes (List.replicate n 0#8))) = .bytes (List.replicate n 0#8) ∧
      (List.replicate n 0#8).length = n := ⟨rfl, rfl, fun _ => ⟨rfl, List.length_replicate⟩⟩

/-- Also of `SAVETILESET` and `SAVEPALETTE`. -/
theorem witness_SaveCharsetWritesBlock :
    (∀ snk, Memory.wf (bindSink (sized 4 3) snk) ∧ nextSink (bindSink (sized 4 3) snk) = snk) :=
  fun _ => ⟨Laws.wf_of_same (sized_wf 4 3) rfl rfl rfl rfl rfl rfl, rfl⟩

/-- Tile 767 and tile 768; a bad character in the last place, and none. -/
theorem witness_SetTileStoresCharacters : Memory.wf (sized 4 3) ∧ 768 ≤ (768#32).toNat ∧ (767#32).toNat < 768 ∧
    smileyChars.length = 64 ∧ PayloadSpells smileyWords smileyChars ∧
    (∀ i < 64, smileyChars.getD i 0#8 ∈ [0x30#8, 0x31#8, 0x20#8]) ∧
    (smileyChars.take 63 ++ [0x32#8]).getD 63 0#8 ∉ [0x30#8, 0x31#8, 0x20#8] ∧
    ∀ j < 63, (smileyChars.take 63 ++ [0x32#8]).getD j 0#8 ∈ [0x30#8, 0x31#8, 0x20#8] := by
  refine ⟨sized_wf 4 3, ?_, ?_, ?_, ?_, ?_, ?_, ?_⟩ <;> (try unfold PayloadSpells) <;> decide +kernel

/-- Tile 767 and tile 768, and another tile. -/
theorem witness_ClearTileZeroesCells : Memory.wf (sized 4 3) ∧ 768 ≤ (768#32).toNat ∧ (767#32).toNat < 768 ∧ 766 ≠ (767#32).toNat :=
  ⟨sized_wf 4 3, by decide⟩

/-- The bad cell in the middle and in the last place, and a tile with none. -/
theorem witness_InvertTileSwapsOnAndOff : Memory.wf withBadTiles ∧ 768 ≤ (768#32).toNat ∧ FirstBad withBadTiles (3#32).toNat 5 ∧
    FirstBad withBadTiles (4#32).toNat 63 ∧ BicolorTile withBadTiles (767#32).toNat := ⟨withBadTiles_wf, by decide +kernel⟩

theorem standard_wf : Config.standard.wf := by
  simp only [Config.wf, Config.standard, List.length_map, List.length_range, List.mem_map]
  refine ⟨by omega, by omega, by decide, by decide, trivial, trivial, ?_⟩
  rintro t ⟨_, -, rfl⟩
  rw [List.length_map, List.length_range]

theorem wf_resized {c : Config} (hc : c.wf) {w h : Nat} (hw : 1 ≤ w) (hh : 1 ≤ h) :
    Config.wf { c with screenW := w, screenH := h } := ⟨hw, hh, hc.2.2⟩

theorem sized_cfg_wf {w h : Nat} (hw : 1 ≤ w) (hh : 1 ≤ h) : (sized w h).cfg.wf := wf_resized standard_wf hw hh

theorem witness_InvertTwiceRestoresState : (sized 4 3).cfg.wf ∧ Memory.wf (sized 4 3) ∧ (767#32).toNat < 768 ∧
    BicolorTile (sized 4 3) (767#32).toNat :=
  ⟨sized_cfg_wf (by omega) (by omega), sized_wf 4 3, by decide, by decide +kernel⟩

/-- The four corners of the index checks. -/
theorem witness_SetTileCellWritesOneCell : Memory.wf (sized 4 3) ∧ 768 ≤ (768#32).toNat ∧ (767#32).toNat < 768 ∧
    64 ≤ (64#32).toNat ∧ (63#32).toNat < 64 := ⟨sized_wf 4 3, by decide⟩

/-- Each answer of the port at a state `LOADTILESET` may meet. -/
theorem witness_LoadTilesetReadsBlock : ∀ n, nextSource (bindSource (sized 4 3) (.bytes (List.replicate n 0#8)))
    = .bytes (List.replicate n 0#8) ∧ (List.replicate n 0#8).length = n := fun _ => ⟨rfl, List.length_replicate⟩

theorem witness_AlignedOriginIsGridCell : (8 : Int) ≤ 8 := by decide

/-- A tile out of range, a tile with a bad cell, a bicolor tile. -/
theorem witness_DrawTileIsItsPixelLoop : Memory.wf withBadTiles ∧ 768 ≤ (768#32).toNat ∧ FirstBad withBadTiles (3#32).toNat 5 ∧
    BicolorTile withBadTiles (767#32).toNat := ⟨withBadTiles_wf, by decide +kernel⟩

/-- Cell 63 holds 256, the first value that is no palette index, or 255, the last that is one. -/
theorem witness_DrawTileMcIsItsPixelLoop :
    (let s := after (.setTileCell 5#32 63#32 255#32) (after (.setTileCell 4#32 63#32 256#32) (sized 4 3))
    Memory.wf s ∧ 256 ≤ (cell s (4#32).toNat 63).toNat ∧ (∀ j < 63, (cell s (4#32).toNat j).toNat < 256) ∧
      ∀ k < 64, (cell s (5#32).toNat k).toNat < 256) :=
  ⟨Laws.setCell_wf (Laws.setCell_wf (sized_wf 4 3) (t := 4) (by omega) 63 256#32) (t := 5) (by omega) 63 255#32, by decide +kernel⟩

/-- "A" then a character whose tile is bad; the same string cut by a NUL before it. -/
theorem witness_DrawStringIsItsPixelLoop : Memory.wf withBadTiles ∧ IsStrLen [0x41#8, 0x04#8] 2 ∧
    BicolorTile withBadTiles (0x41#8).toNat ∧ FirstBad withBadTiles (0x04#8).toNat 63 ∧ IsStrLen [0x41#8, 0x00#8, 0x04#8] 1 ∧
    PayloadSpells [0x00000441#32] [0x41#8, 0x04#8] := by
  refine ⟨withBadTiles_wf, ?_, ?_, ?_, ?_, ?_⟩ <;> (try unfold IsStrLen) <;> (try unfold PayloadSpells) <;> decide +kernel

/-- Also of `SETCOLORRAW`: the reserved byte set and clear, the last entry and the first index out of range. -/
theorem witness_SetColorRgbWritesEntry : Memory.wf (sized 4 3) ∧ (0x01FF0000#32).extractLsb' 24 8 ≠ 0#8 ∧
    (0x00FF0000#32).extractLsb' 24 8 = 0#8 ∧ 256 ≤ (256#32).toNat ∧ (255#32).toNat < 256 := ⟨sized_wf 4 3, by decide⟩

theorem witness_SetColorRawWritesEntry : Memory.wf (sized 4 3) ∧ 256 ≤ (256#32).toNat ∧ (255#32).toNat < 256 :=
  ⟨sized_wf 4 3, by decide⟩

theorem witness_LoadPaletteReadsBlock : ∀ n, nextSource (bindSource (sized 4 3) (.bytes (List.replicate n 0#8)))
    = .bytes (List.replicate n 0#8) ∧ (List.replicate n 0#8).length = n := fun _ => ⟨rfl, List.length_replicate⟩

/-- A palette saved from one state and loaded into another from a source one byte longer; the other tables alike. -/
theorem witness_SavedTablesLoadBack :
    (let s := bindSink (sized 4 3) .accepts
    let u (b : List Byte) := bindSource withBadTiles (.bytes (b ++ [0xFF#8]))
    Memory.wf s ∧ nextSink s = .accepts ∧ (∀ b, nextSource (u b) = .bytes (b ++ [0xFF#8])) ∧
    (∃ t t', exec .saveCharset s = .next t ∧ t.sunk = s.sunk ++ [.block (charsetBlock s)] ∧
      exec .loadCharset (u (charsetBlock s)) = .next t') ∧
    (∃ t t', exec .saveTileset s = .next t ∧ t.sunk = s.sunk ++ [.block (tilesetBlock s)] ∧
      exec .loadTileset (u (tilesetBlock s)) = .next t') ∧
    ∃ t t', exec .savePalette s = .next t ∧ t.sunk = s.sunk ++ [.block (paletteBlock s)] ∧
      exec .loadPalette (u (paletteBlock s)) = .next t') :=
  ⟨Laws.wf_of_same (sized_wf 4 3) rfl rfl rfl rfl rfl rfl, rfl, fun _ => rfl, ⟨_, _, rfl, rfl, rfl⟩, ⟨_, _, rfl, rfl, rfl⟩,
    ⟨_, _, rfl, rfl, rfl⟩⟩

theorem witness_BoundPortIsUsedInOrder : (bindSource (bindSource (sized 4 3) .unreadable) .unopenable).sources
      = [.unreadable, .unopenable] ∧
    (bindSink (bindSink (sized 4 3) .unwritable) .accepts).sinks = [.unwritable, .accepts] := ⟨rfl, rfl⟩

/-- The last display word and its last byte. -/
theorem witness_DisplayBytesAreLittleEndian : 11 < (sized 4 3).display.length ∧ 3 < 4 := by decide +kernel

theorem witness_RegisterPortReadsSeven : 6 < 7 ∧ step (sized 4 3) = .next (sized 4 3) := ⟨by decide, rfl⟩

theorem witness_EachTableHasItsWriters : exec (.clear 1#32) (sized 4 3) = .next (cleared 4 3 1#32) := rfl

theorem witness_FramebufferDoesNotFlowBack : exec (.getColor 1#32) (sized 4 3) = .next (after (.getColor 1#32) (sized 4 3)) := rfl

/-- A state of the first kind, the machine's own reset, and one of the second. -/
theorem witness_ResetLeavesSpecifiedValues : (∃ c d, State.reset = State.resetOf c d) ∧
    ∃ u, applyReset withBadTiles = applyReset u := ⟨⟨_, _, rfl⟩, _, rfl⟩

theorem witness_StepKeepsInvariant : StateInv (sized 4 3) ∧ step (sized 4 3) = .next (sized 4 3) :=
  ⟨⟨sized_cfg_wf (by omega) (by omega), sized_wf 4 3, by decide +kernel⟩, rfl⟩

end Sys2Proof.Tests
end

section
/-! Every command and every step answers a next state (00_scope.md R8, 60_exceptions.md R87). -/

namespace Sys2Proof.Scope

open Sys2Proof.Machine

variable {s : State}

theorem step_of_hold (h : fetch s = .hold) : step s = .next s := by
  simp only [step, h]

theorem step_of_illegal {why : IllegalHeader} {w : Word} {rest : List Word} (h : fetch s = .illegal why w rest) :
    step s = .next (takeIllegal s why w rest) := by
  simp only [step, h]

theorem step_of_command {i : Instr} {rest : List Word} (h : fetch s = .command i rest) :
    step s = exec i (consume s rest) := by
  simp only [step, h]

/-- Every arm of `exec` is written as `.next` of a state: a fault is recorded in that state (R85), it does not stop
the block. -/
theorem exec_answers_next (i : Instr) (s : State) : ∃ t, exec i s = .next t := by
  cases i <;> exact ⟨_, rfl⟩

theorem step_answers_next (s : State) : ∃ t, step s = .next t := by
  cases h : fetch s with
  | hold => exact ⟨s, step_of_hold h⟩
  | illegal why w rest => exact ⟨takeIllegal s why w rest, step_of_illegal h⟩
  | command i rest =>
    rw [step_of_command h]
    exact exec_answers_next i (consume s rest)

/-- Settles O45: every arm of `exec` is a next state, and a step is a hold, a recorded illegal header or an `exec`. -/
theorem everyStepAnswersNext : Obligations.EveryStepAnswersNext :=
  ⟨exec_answers_next, step_answers_next⟩

end Sys2Proof.Scope
end

section
/-! What one command can do to the state, said once (10_state.md R10 to R20, 60_exceptions.md R85, R89): it may use the
block port, and then it leaves the state alone, records one of its faults, or replaces one piece that it may write. -/

namespace Sys2Proof.StateRules

open Sys2Proof.Machine Sys2Proof.Laws

/-- What command `i` can do to the block port before anything else (20_memory.md R40). -/
inductive PortUse (i : Instr) (s : State) : State → Prop
  | untouched : PortUse i s s
  | load (ho : i.opcode ∈ [.loadCharset, .loadTileset, .loadPalette]) : PortUse i s (useSource s)
  | save (ho : i.opcode ∈ [.saveCharset, .saveTileset, .savePalette]) (d : Delivered) :
    PortUse i s (deliver (useSink s) d)

/-- What command `i` can do to the state besides using the port: nothing, one of its faults, or a new value, of the
right shape, for one piece of the state that it may write. -/
inductive Update (i : Instr) (s : State) : State → Prop
  | same : Update i s s
  | fault (c : Condition) (hc : (conditionCode c, conditionSub c) ∈ specFaults i := by
      simp [specFaults, conditionCode, conditionSub]) : Update i s (raise s i.opcode c)
  | charset {v : List (List Byte)} (hwf : Memory.wf s → Memory.wf (s.setCharset v))
    (ho : i.opcode ∈ [.setGlyph, .loadCharset] := by simp [Instr.opcode]) : Update i s (s.setCharset v)
  | tile {v : List (List Word)} (hwf : s.cfg.wf → Memory.wf s → Memory.wf (s.setTile v))
    (ho : i.opcode ∈ [.setTile, .clearTile, .invertTile, .setTileCell, .genTileset, .loadTileset] := by
      simp [Instr.opcode]) : Update i s (s.setTile v)
  | pal {v : List Word} (hwf : s.cfg.wf → Memory.wf s → Memory.wf (s.setPal v))
    (ho : i.opcode ∈ [.setColorRgb, .setColorRaw, .genPalette, .loadPalette] := by simp [Instr.opcode]) :
    Update i s (s.setPal v)
  | fb {v : List (List Word)} (hwf : Memory.wf s → Memory.wf (s.setFb v))
    (ho : i.opcode ∈ [.clear, .setPixel, .drawChar, .print, .drawTile, .drawTileMc, .drawString] := by
      simp [Instr.opcode]) : Update i s (s.setFb v)
  | display {v : List Word} (hwf : Memory.wf s → Memory.wf (s.setDisplay v)) (ho : i.opcode = .present := by rfl) :
    Update i s (s.setDisplay v)
  | result {v : Word} (ho : i.opcode ∈ [.getTileCell, .getColor] := by simp [Instr.opcode]) :
    Update i s (s.setResult v)

/-- Everything command `i` can do: use the port, then update the state. -/
def Change (i : Instr) (s t : State) : Prop := ∃ u, PortUse i s u ∧ Update i u t

theorem Update.change {i : Instr} {s t : State} (h : Update i s t) : Change i s t := ⟨s, .untouched, h⟩

/-! ### Each command makes one of these changes -/

variable {s : State}

/-- A cleared framebuffer has the shape of the screen (40_framebuffer.md R54). -/
theorem clearedFb_wf (h : Memory.wf s) (c : Word) :
    Memory.wf (s.setFb (List.replicate s.cfg.screenH (List.replicate s.cfg.screenW c))) :=
  setFb_wf h ⟨List.length_replicate, fun r hr => by rw [List.eq_of_mem_replicate hr, List.length_replicate]⟩

/-- The framebuffer laid end to end has as many words as the display (20_memory.md R32). -/
theorem length_flatten_fb (h : Memory.wf s) : s.fb.flatten.length = s.cfg.screenW * s.cfg.screenH := by
  obtain ⟨hrows, hcols⟩ := fb_shape h
  rw [length_flatten_rows _ _ hcols, hrows]

/-- A loading command uses the port, and then records a failure or writes what it loads (20_memory.md R40). -/
theorem loadBlock_change {i : Instr} {n : Nat} {load : State → List Byte → State}
    (ho : i.opcode ∈ [.loadCharset, .loadTileset, .loadPalette]) (hf : specFaults i = [(1#8, 1#8), (1#8, 2#8)])
    (hl : ∀ u b, b.length = n → Update i u (load u b)) : Change i s (loadBlock s i.opcode n load) := by
  refine ⟨useSource s, .load ho, ?_⟩
  obtain e | e | ⟨b, hb, e⟩ := loadBlock_cases s i.opcode n load <;> rw [e]
  · exact .fault .ioOpen (by simp [hf, conditionCode, conditionSub])
  · exact .fault .ioRead (by simp [hf, conditionCode, conditionSub])
  · exact hl _ b hb

/-- A saving command uses the port, and then may record a failure (20_memory.md R40). -/
theorem saveBlock_change {i : Instr} {b : List Byte} (ho : i.opcode ∈ [.saveCharset, .saveTileset, .savePalette])
    (hf : specFaults i = [(1#8, 1#8), (1#8, 3#8)]) : Change i s (saveBlock s i.opcode b) := by
  obtain e | e | e := saveBlock_cases s i.opcode b <;> rw [e]
  · exact ⟨_, .save ho _, .same⟩
  · exact ⟨_, .save ho _, .fault .ioOpen (by simp [hf, conditionCode, conditionSub])⟩
  · exact ⟨_, .save ho _, .fault .ioWrite (by simp [hf, conditionCode, conditionSub])⟩

theorem setPixel_change (x y c : Word) (s : State) :
    Change (.setPixel x y c) s (putPixel s (coord x) (coord y) c) := by
  have hwf := fun h : Memory.wf s => putPixel_wf h (coord x) (coord y) c
  unfold putPixel at hwf ⊢
  split_ifs with hin
  · simp only [if_pos hin] at hwf
    exact Update.change (.fb hwf)
  · exact Update.change .same

/-- Every command answers one of the changes it may make. -/
theorem exec_change (i : Instr) (s : State) : ∃ t, exec i s = .next t ∧ Change i s t := by
  cases i with
  | clear c => exact ⟨_, rfl, Update.change (.fb fun h => clearedFb_wf h c)⟩
  | setPixel x y c => exact ⟨_, rfl, setPixel_change x y c s⟩
  | present =>
    refine ⟨_, rfl, Update.change (.display fun h => setDisplay_wf h ?_)⟩
    split
    · exact length_flatten_fb h
    · simpa [List.length_flatten] using length_flatten_fb h
  | drawChar g x y fg bg =>
    refine ⟨_, rfl, Update.change ?_⟩
    split
    · exact .fault (.glyphIndex g)
    · exact .fb fun h => setFb_wf h (drawGrid_shape (fb_shape h) _ _ _ _ _)
  | print x y fg bg str =>
    exact ⟨_, rfl, Update.change (.fb fun h => setFb_wf h (drawGlyphs_shape _ _ _ _ _ (fb_shape h)))⟩
  | setGlyph g a b =>
    refine ⟨_, rfl, Update.change ?_⟩
    split
    · exact .fault (.glyphIndex g)
    · exact .charset fun h => setGlyphRows_wf h _ rfl
  | loadCharset =>
    exact ⟨_, rfl, loadBlock_change (by decide) rfl fun u b hb =>
      .charset fun h => setCharset_wf h (charsetOfBlock_wf hb).1 (charsetOfBlock_wf hb).2⟩
  | saveCharset => exact ⟨_, rfl, saveBlock_change (by decide) rfl⟩
  | setTile t ch =>
    refine ⟨_, rfl, Update.change ?_⟩
    split
    · exact .fault (.tileIndex t)
    · split
      · exact .fault (.badChar _)
      · exact .tile fun _ h => setTileCells_wf h _ (by simp)
  | clearTile t =>
    refine ⟨_, rfl, Update.change ?_⟩
    split
    · exact .fault (.tileIndex t)
    · exact .tile fun _ h => setTileCells_wf h _ (by simp)
  | invertTile t =>
    refine ⟨_, rfl, Update.change ?_⟩
    split
    · exact .fault (.tileIndex t)
    · split
      · exact .fault (.badCell _)
      · next ht _ _ =>
        exact .tile fun _ h => setTileCells_wf h _ ((List.length_map _).trans (tile_length h (Nat.lt_of_not_le ht)))
  | setTileCell t k v =>
    refine ⟨_, rfl, Update.change ?_⟩
    split
    · exact .fault (.tileIndex t)
    · split
      · exact .fault (.cellIndex k)
      · next ht _ => exact .tile fun _ h => setCell_wf h (Nat.lt_of_not_le ht) _ v
  | getTileCell t k =>
    refine ⟨_, rfl, Update.change ?_⟩
    split
    · exact .fault (.tileIndex t)
    · split
      · exact .fault (.cellIndex k)
      · exact .result
  | drawTile align t fg bg x y w h =>
    refine ⟨_, rfl, Update.change ?_⟩
    split
    · exact .fault (.tileIndex t)
    · split
      · exact .fault (.badCell _)
      · dsimp only
        split
        · exact .same
        · exact .fb fun h => setFb_wf h (drawBi_shape (fb_shape h) _ _ _ _ _ _ _)
  | drawTileMc align indexed t x y w h =>
    refine ⟨_, rfl, Update.change ?_⟩
    split
    · exact .fault (.tileIndex t) (by cases indexed <;> simp [specFaults, conditionCode, conditionSub])
    · split
      · next hbad =>
        cases indexed with
        | false => simp at hbad
        | true => exact .fault (.paletteIndex _)
      · dsimp only
        split
        · exact .same
        · exact .fb fun h => setFb_wf h (drawGrid_shape (fb_shape h) _ _ _ _ _)
  | drawString x y fg bg w h str =>
    refine ⟨_, rfl, Update.change ?_⟩
    split
    · exact .fault (.badCell _)
    · dsimp only
      split
      · exact .same
      · exact .fb fun h => setFb_wf h (drawTiles_shape _ _ _ _ _ (fb_shape h))
  | genTileset =>
    exact ⟨_, rfl, Update.change (.tile fun hc h => by
      obtain ⟨-, -, -, -, -, hlen, hcells⟩ := hc
      exact setTile_wf h hlen hcells)⟩
  | loadTileset =>
    exact ⟨_, rfl, loadBlock_change (by decide) rfl fun u b hb =>
      .tile fun _ h => setTile_wf h (tilesetOfBlock_wf hb).1 (tilesetOfBlock_wf hb).2⟩
  | saveTileset => exact ⟨_, rfl, saveBlock_change (by decide) rfl⟩
  | setColorRgb i rgb =>
    refine ⟨_, rfl, Update.change ?_⟩
    split
    · exact .fault (.operandField rgb)
    · split
      · exact .fault (.paletteIndex i)
      · exact .pal fun _ h => setColor_wf h _ _
  | setColorRaw i v =>
    refine ⟨_, rfl, Update.change ?_⟩
    split
    · exact .fault (.paletteIndex i)
    · exact .pal fun _ h => setColor_wf h _ v
  | getColor i =>
    refine ⟨_, rfl, Update.change ?_⟩
    split
    · exact .fault (.paletteIndex i)
    · exact .result
  | genPalette =>
    exact ⟨_, rfl, Update.change (.pal fun hc h => by
      obtain ⟨-, -, -, -, hlen, -, -⟩ := hc
      exact setPal_wf h hlen)⟩
  | loadPalette =>
    exact ⟨_, rfl, loadBlock_change (by decide) rfl fun u b hb =>
      .pal fun _ h => setPal_wf h (paletteOfBlock_wf hb)⟩
  | savePalette => exact ⟨_, rfl, saveBlock_change (by decide) rfl⟩

theorem change_of_exec {i : Instr} {t : State} (h : exec i s = .next t) : Change i s t := by
  obtain ⟨t', ht', hc⟩ := exec_change i s
  obtain rfl : t' = t := Host.Outcome.next.inj (ht'.symm.trans h)
  exact hc

/-- One step changes nothing, records an illegal header it has consumed, or makes a change of the command it has
consumed (00_scope.md R8, 30_encoding.md R48, R52). -/
theorem step_cases {t : State} (h : step s = .next t) :
    t = s ∨ (∃ rest opc c, t = recordFault (consume s rest) opc c) ∨ ∃ i rest, Change i (consume s rest) t := by
  cases hf : fetch s with
  | hold => exact .inl (Host.Outcome.next.inj (h.symm.trans (Scope.step_of_hold hf)))
  | illegal why w rest =>
    exact .inr (.inl ⟨rest, _, _, Host.Outcome.next.inj (h.symm.trans (Scope.step_of_illegal hf))⟩)
  | command i rest => exact .inr (.inr ⟨i, rest, change_of_exec ((Scope.step_of_command hf).symm.trans h)⟩)

end Sys2Proof.StateRules
end

section
/-! What every command leaves unchanged, and what it can do to the fault registers (10_state.md R10 to R20). -/

namespace Sys2Proof.StateRules

open Sys2Proof.Machine Sys2Proof.Laws

/-- `t` is `s` but for the pieces that a command of operation `o` may write (R10 to R14, R20); the fault registers and
the counter of free values are left out. -/
structure Frame (o : Opcode) (s t : State) : Prop where
  cfg : t.cfg = s.cfg := by simp
  stream : t.stream = s.stream := by simp
  charset : t.charset = s.charset ∨ o ∈ [.setGlyph, .loadCharset] := by simp
  tile : t.tile = s.tile ∨
    o ∈ [.setTile, .clearTile, .invertTile, .setTileCell, .genTileset, .loadTileset] := by simp
  pal : t.pal = s.pal ∨ o ∈ [.setColorRgb, .setColorRaw, .genPalette, .loadPalette] := by simp
  fb : t.fb = s.fb ∨
    o ∈ [.clear, .setPixel, .drawChar, .print, .drawTile, .drawTileMc, .drawString] := by simp
  display : t.display = s.display ∨ o = .present := by simp
  result : t.result = s.result ∨ o ∈ [.getTileCell, .getColor] := by simp
  sources : t.sources = s.sources ∨ o ∈ [.loadCharset, .loadTileset, .loadPalette] := by simp
  sinks : t.sinks = s.sinks ∧ t.sunk = s.sunk ∨ o ∈ [.saveCharset, .saveTileset, .savePalette] := by simp

/-- Unchanged twice over is unchanged. -/
theorem eq_or_trans {α : Type} {a b c : α} {p : Prop} (h : b = a ∨ p) (h' : c = b ∨ p) : c = a ∨ p := by
  obtain rfl | h := h
  · exact h'
  · exact .inr h

theorem Frame.trans {o : Opcode} {s u t : State} (h : Frame o s u) (h' : Frame o u t) : Frame o s t where
  cfg := h'.cfg.trans h.cfg
  stream := h'.stream.trans h.stream
  charset := eq_or_trans h.charset h'.charset
  tile := eq_or_trans h.tile h'.tile
  pal := eq_or_trans h.pal h'.pal
  fb := eq_or_trans h.fb h'.fb
  display := eq_or_trans h.display h'.display
  result := eq_or_trans h.result h'.result
  sources := eq_or_trans h.sources h'.sources
  sinks := by
    have hs := h.sinks
    have hs' := h'.sinks
    rw [← Prod.mk.injEq] at hs hs' ⊢
    exact eq_or_trans hs hs'

variable {i : Instr} {s t : State}

theorem PortUse.frame (h : PortUse i s t) : Frame i.opcode s t := by
  cases h with
  | untouched => exact {}
  | load ho => exact { sources := .inr ho }
  | save ho d => exact { sinks := .inr ho }

theorem Update.frame (h : Update i s t) : Frame i.opcode s t := by
  cases h with
  | same => exact {}
  | fault c => exact {}
  | charset _ ho => exact { charset := .inr ho }
  | tile _ ho => exact { tile := .inr ho }
  | pal _ ho => exact { pal := .inr ho }
  | fb _ ho => exact { fb := .inr ho }
  | display _ ho => exact { display := .inr ho }
  | result ho => exact { result := .inr ho }

theorem Change.frame (h : Change i s t) : Frame i.opcode s t := by
  obtain ⟨u, hport, hupdate⟩ := h
  exact hport.frame.trans hupdate.frame

/-- Settles O43: every change a command can make has the command's frame. -/
theorem eachTableHasItsWriters : Obligations.EachTableHasItsWriters := by
  intro i s t h
  have hf := (change_of_exec h).frame
  exact ⟨hf.cfg, hf.stream, hf.charset, hf.tile, hf.pal, hf.fb, hf.display, hf.result, hf.sources, hf.sinks⟩

theorem step_cfg (h : step s = .next t) : t.cfg = s.cfg := by
  obtain rfl | ⟨rest, opc, c, rfl⟩ | ⟨i, rest, hc⟩ := step_cases h
  · rfl
  · rfl
  · exact hc.frame.cfg

/-! ### The fault registers -/

/-- The fault registers of `t` are those of `s`, or what one fault entry makes of them (60_exceptions.md R85). -/
def AtMostOneFault (s t : State) : Prop :=
  (t.fstat = s.fstat ∧ t.fcode = s.fcode ∧ t.finfo = s.finfo) ∨
    ∃ opc c, t.fstat = fstatWith s.fstat c ∧ t.fcode = fcodeOf opc c ∧ t.finfo = conditionInfo c

theorem PortUse.faultRegs (h : PortUse i s t) : t.fstat = s.fstat ∧ t.fcode = s.fcode ∧ t.finfo = s.finfo := by
  cases h <;> simp

theorem Update.atMostOneFault (h : Update i s t) : AtMostOneFault s t := by
  cases h with
  | fault c => exact .inr ⟨i.opcode.code, c, rfl, rfl, rfl⟩
  | same | charset | tile | pal | fb | display | result => exact .inl ⟨rfl, rfl, rfl⟩

theorem Change.atMostOneFault (h : Change i s t) : AtMostOneFault s t := by
  obtain ⟨u, hport, hupdate⟩ := h
  obtain ⟨hstat, hcode, hinfo⟩ := hport.faultRegs
  simpa only [AtMostOneFault, hstat, hcode, hinfo] using hupdate.atMostOneFault

theorem step_atMostOneFault (h : step s = .next t) : AtMostOneFault s t := by
  obtain rfl | ⟨rest, opc, c, rfl⟩ | ⟨i, rest, hc⟩ := step_cases h
  · exact .inl ⟨rfl, rfl, rfl⟩
  · exact .inr ⟨opc, c, rfl, rfl, rfl⟩
  · exact hc.atMostOneFault

/-- Fault entry keeps the bits that are set (10_state.md R17). -/
theorem and_fstatWith (fstat : Word) (c : Condition) : fstat &&& fstatWith fstat c = fstat := by
  rw [fstatWith]
  ext k
  simp +contextual

/-- Settles O9: a step keeps `FSTAT` or is one fault entry, which only sets a bit. -/
theorem noStepClearsFaultBit : Obligations.NoStepClearsFaultBit := by
  intro s t h
  obtain ⟨hstat, -, -⟩ | ⟨opc, c, hstat, -, -⟩ := step_atMostOneFault h
  · rw [hstat, BitVec.and_self]
  · rw [hstat, and_fstatWith]

/-! ### The register port -/

theorem readReg_two (s : State) : readReg s 2 = if s.cfg.rowOrder = .bottomUp then 1#32 else 0#32 := by
  cases h : s.cfg.rowOrder <;> simp [readReg, h]

theorem readReg_above (s : State) {n : Nat} (h : 6 < n) : readReg s n = 0#32 := by
  obtain ⟨k, rfl⟩ := Nat.exists_eq_add_of_le' h
  rfl

/-- The configuration registers read the parameters (10_state.md R16). -/
theorem readReg_of_cfg_eq (h : t.cfg = s.cfg) {n : Nat} (hn : n < 3) : readReg t n = readReg s n := by
  interval_cases n <;> simp only [readReg, h]

/-- Settles O42: the port by its register numbers, and no step changes the parameters. -/
theorem registerPortReadsSeven : Obligations.RegisterPortReadsSeven := fun s =>
  ⟨rfl, rfl, readReg_two s, rfl, rfl, rfl, rfl, fun _ => readReg_above s, fun _ _ => rfl,
    fun _ h _ => readReg_of_cfg_eq (step_cfg h)⟩

end Sys2Proof.StateRules
end

section
/-! The invariant of the state (`StateInv`) after reset and along every step (10_state.md R9, R17, R18, R25). -/

namespace Sys2Proof.StateRules

open Sys2Proof.Machine Sys2Proof.Laws

variable {i : Instr} {s t : State}

/-! ### Reset -/

/-- The values 10_state.md R25 specifies: charset, tileset, palette and registers zero, the stream empty. -/
structure Cleared (s : State) : Prop where
  charset : s.charset = List.replicate 256 (List.replicate 8 0#8) := by rfl
  tile : s.tile = List.replicate 768 (List.replicate 64 0#32) := by rfl
  pal : s.pal = List.replicate 256 0#32 := by rfl
  fstat : s.fstat = 0#32 := by rfl
  fcode : s.fcode = 0#32 := by rfl
  finfo : s.finfo = 0#32 := by rfl
  result : s.result = 0#32 := by rfl
  stream : s.stream = [] := by rfl

/-- Every reset, the first or one the host applies, leaves tables of their shapes and the values of R25. -/
theorem wf_and_cleared_of_reset (h : (∃ c d, s = State.resetOf c d) ∨ ∃ u, s = applyReset u) :
    Memory.wf s ∧ Cleared s := by
  obtain ⟨c, d, rfl⟩ | ⟨u, rfl⟩ := h
  · exact ⟨resetOf_wf c d, {}⟩
  · exact ⟨applyReset_wf u, {}⟩

theorem getD_replicate_self {α : Type} (n i : Nat) (a : α) : (List.replicate n a).getD i a = a := by
  rw [List.getD_eq_getElem?_getD, List.getElem?_replicate]
  split <;> rfl

theorem getD_getD_replicate {α : Type} (m n i j : Nat) (a : α) :
    ((List.replicate m (List.replicate n a)).getD i []).getD j a = a := by
  by_cases hi : i < m
  · rw [List.getD_replicate _ hi, getD_replicate_self]
  · simp [List.getD_eq_getElem?_getD, hi]

theorem Cleared.charRow (h : Cleared s) (g r : Nat) : charRow s g r = 0#8 := by
  rw [Machine.charRow, h.charset, getD_getD_replicate]

theorem Cleared.cell (h : Cleared s) (t k : Nat) : cell s t k = 0#32 := by
  rw [Machine.cell, h.tile, getD_getD_replicate]

theorem Cleared.color (h : Cleared s) (i : Nat) : color s i = 0#32 := by
  rw [Machine.color, h.pal, getD_replicate_self]

/-- Settles O46: every reset leaves the values of R25, and a zero table reads zero. -/
theorem resetLeavesSpecifiedValues : Obligations.ResetLeavesSpecifiedValues := by
  refine ⟨⟨Config.standard, rfl⟩, fun s h => ?_⟩
  obtain ⟨hwf, hs⟩ := wf_and_cleared_of_reset h
  exact ⟨hwf, hs.charRow, hs.cell, hs.color, hs.fstat, hs.fcode, hs.finfo, hs.result, hs.stream, rfl, rfl,
    readReg_two s⟩

/-- The default parameters are legal (00_scope.md R4). -/
theorem standard_wf : Config.standard.wf := by
  refine ⟨by decide, by decide, by decide, by decide, by simp [Config.standard], by simp [Config.standard],
    fun t ht => ?_⟩
  simp only [Config.standard, List.mem_map] at ht
  obtain ⟨n, -, rfl⟩ := ht
  rw [List.length_map, List.length_range]

/-- Settles O47: legal defaults, tables of their shapes, fault registers zero. -/
theorem resetMeetsInvariant : Obligations.ResetMeetsInvariant := ⟨standard_wf, reset_wf, rfl, rfl⟩

/-! ### Every step -/

theorem PortUse.wf (h : PortUse i s t) (hwf : Memory.wf s) : Memory.wf t := by
  cases h with
  | untouched => exact hwf
  | load => exact useSource_wf hwf
  | save _ d => exact deliver_wf (useSink_wf hwf) d

theorem Update.wf (h : Update i s t) (hcfg : s.cfg.wf) (hwf : Memory.wf s) : Memory.wf t := by
  cases h with
  | same => exact hwf
  | fault c => exact raise_wf hwf _ c
  | charset hv => exact hv hwf
  | tile hv => exact hv hcfg hwf
  | pal hv => exact hv hcfg hwf
  | fb hv => exact hv hwf
  | display hv => exact hv hwf
  | result => exact setResult_wf hwf _

theorem Change.wf (h : Change i s t) (hcfg : s.cfg.wf) (hwf : Memory.wf s) : Memory.wf t := by
  obtain ⟨u, hport, hupdate⟩ := h
  exact hupdate.wf (hport.frame.cfg ▸ hcfg) (hport.wf hwf)

theorem step_wf (h : step s = .next t) (hcfg : s.cfg.wf) (hwf : Memory.wf s) : Memory.wf t := by
  obtain rfl | ⟨rest, opc, c, rfl⟩ | ⟨i, rest, hc⟩ := step_cases h
  · exact hwf
  · exact recordFault_wf (consume_wf hwf rest) opc c
  · exact hc.wf hcfg (consume_wf hwf rest)

/-- A condition's bit is one of the four of 10_state.md R17. -/
theorem fstatWith_ushiftRight {fstat : Word} (h : fstat >>> 4 = 0#32) (c : Condition) :
    fstatWith fstat c >>> 4 = 0#32 := by
  rw [fstatWith, BitVec.ushiftRight_or_distrib, h]
  cases c <;> simp [conditionCode]

/-- The top byte of `FCODE` is zero (10_state.md R18). -/
theorem fcodeOf_ushiftRight (opc : Byte) (c : Condition) : fcodeOf opc c >>> 24 = 0#32 := by
  apply BitVec.eq_of_getLsbD_eq
  intro k hk
  have happend : (fcodeOf opc c).getLsbD (24 + k) =
      BitVec.getLsbD (w := 8 + 8 + 8 + 8) (0#8 ++ opc ++ conditionSub c ++ conditionCode c) (24 + k) := rfl
  rw [BitVec.getLsbD_ushiftRight, happend]
  simp only [BitVec.getLsbD_append, BitVec.getLsbD_zero, show ¬ 24 + k < 8 by omega, show ¬ 24 + k - 8 < 8 by omega,
    show ¬ 24 + k - 8 - 8 < 8 by omega, if_false]

theorem AtMostOneFault.faultRegs_wf (h : AtMostOneFault s t) (hwf : FaultRegs.wf s) : FaultRegs.wf t := by
  obtain ⟨hstat, hcode⟩ := hwf
  obtain ⟨ht, ht', -⟩ | ⟨opc, c, ht, ht', -⟩ := h
  · exact ⟨ht ▸ hstat, ht' ▸ hcode⟩
  · exact ⟨ht ▸ fstatWith_ushiftRight hstat c, ht' ▸ fcodeOf_ushiftRight opc c⟩

/-- Settles O48: a step keeps the parameters, each change keeps the shapes, and fault entry keeps the reserved bits. -/
theorem stepKeepsInvariant : Obligations.StepKeepsInvariant := by
  intro s t hinv h
  obtain ⟨hcfg, hmem, hregs⟩ := hinv
  exact ⟨step_cfg h ▸ hcfg, step_wf h hcfg hmem, (step_atMostOneFault h).faultRegs_wf hregs⟩

end Sys2Proof.StateRules
end

section
/-! `FB` and `DISPLAY` are sinks: no command reads them into any other piece of the state (10_state.md R11, R14,
20_memory.md R38). -/

namespace Sys2Proof.StateRules

open Sys2Proof.Machine Sys2Proof.Laws

/-- `s` with any other framebuffer and display. -/
def withScreen (s : State) (fb : List (List Word)) (display : List Word) : State :=
  { s with fb := fb, display := display }

/-- `s'` is `s` in every field but `FB` and `DISPLAY`. -/
def SameButScreen (s s' : State) : Prop := s' = withScreen s s'.fb s'.display

/-- A branch on a condition that is not about `FB` or `DISPLAY` is taken alike. -/
theorem SameButScreen.ite {p : Prop} [Decidable p] {a b a' b' : State} (ha : SameButScreen a a')
    (hb : SameButScreen b b') : SameButScreen (if p then a else b) (if p then a' else b') := by
  split
  · exact ha
  · exact hb

section
variable (s : State) (fb : List (List Word)) (display : List Word)

/-! The checks and the port do not read `FB` or `DISPLAY`. -/

theorem bicolorFault_withScreen (t : Nat) : bicolorFault (withScreen s fb display) t = bicolorFault s t := rfl

theorem indexFault_withScreen (t : Nat) : indexFault (withScreen s fb display) t = indexFault s t := rfl

theorem stringFault_withScreen (str : List Byte) :
    stringFault (withScreen s fb display) str = stringFault s str := by
  induction str with
  | nil => rfl
  | cons b str ih => simp only [stringFault, bicolorFault_withScreen, ih]

theorem nextSource_withScreen : nextSource (withScreen s fb display) = nextSource s := rfl

theorem nextSink_withScreen : nextSink (withScreen s fb display) = nextSink s := rfl

theorem useSource_withScreen : useSource (withScreen s fb display) = withScreen (useSource s) fb display := by
  rw [useSource_eq, useSource_eq]
  rfl

theorem useSink_withScreen : useSink (withScreen s fb display) = withScreen (useSink s) fb display := by
  rw [useSink_eq, useSink_eq]
  rfl

theorem loadBlock_sameButScreen (o : Opcode) (n : Nat) {load : State → List Byte → State}
    (hl : ∀ u b, SameButScreen (load u b) (load (withScreen u fb display) b)) :
    SameButScreen (loadBlock s o n load) (loadBlock (withScreen s fb display) o n load) := by
  rw [loadBlock, loadBlock, nextSource_withScreen, useSource_withScreen]
  cases sourceAnswer n (nextSource s) with
  | error c => rfl
  | ok b => exact hl (useSource s) b

theorem saveBlock_sameButScreen (o : Opcode) (b : List Byte) :
    SameButScreen (saveBlock s o b) (saveBlock (withScreen s fb display) o b) := by
  rw [saveBlock, saveBlock, nextSink_withScreen, useSink_withScreen]
  cases nextSink s <;> rfl

/-- A command run with another framebuffer and display makes the same checks and writes the same values: the two answers
differ in `FB` and `DISPLAY` at most. -/
theorem exec_withScreen (i : Instr) :
    ∃ t t', exec i s = .next t ∧ exec i (withScreen s fb display) = .next t' ∧ SameButScreen t t' := by
  cases i <;> refine ⟨_, _, rfl, rfl, ?_⟩
  case clear | present | print | genTileset | genPalette => rfl
  case setPixel | drawChar | setGlyph | clearTile | setColorRaw | getColor => exact .ite rfl rfl
  case setTileCell | getTileCell | setColorRgb => exact .ite rfl (.ite rfl rfl)
  case loadCharset | loadTileset | loadPalette => exact loadBlock_sameButScreen s fb display _ _ fun _ _ => rfl
  case saveCharset | saveTileset | savePalette => exact saveBlock_sameButScreen s fb display _ _
  case setTile t ch =>
    refine .ite rfl ?_
    dsimp only [withScreen]
    split <;> rfl
  case invertTile t =>
    refine .ite rfl ?_
    rw [bicolorFault_withScreen]
    split <;> rfl
  case drawTile align t fg bg x y w h =>
    refine .ite rfl ?_
    rw [bicolorFault_withScreen]
    split
    · rfl
    · exact .ite rfl rfl
  case drawTileMc align indexed t x y w h =>
    refine .ite rfl ?_
    rw [indexFault_withScreen]
    split
    · rfl
    · exact .ite rfl rfl
  case drawString x y fg bg w h str =>
    rw [stringFault_withScreen]
    split
    · rfl
    · exact .ite rfl rfl

end

/-- Settles O44: the run with another framebuffer and display differs from the first in those two alone. -/
theorem framebufferDoesNotFlowBack : Obligations.FramebufferDoesNotFlowBack := by
  intro i s t fb display h
  obtain ⟨u, t', hu, ht', hsame⟩ := exec_withScreen s fb display i
  obtain rfl : u = t := Host.Outcome.next.inj (hu.symm.trans h)
  exact ⟨t', ht', hsame⟩

end Sys2Proof.StateRules
end

section
/-! The table blocks and the display, byte for byte: what a `SAVE*` delivers a `LOAD*` reads back (20_memory.md R29 to
R31, R40, R41), and `DISPLAY` lies in bytes as R28 and R32 say. -/

namespace Sys2Proof.Blocks

open Sys2Proof.Machine Sys2Proof.Laws

variable {s u : State}

/-! A block holds the table it was made from. -/

theorem charsetOfBlock_charsetBlock (h : Memory.wf s) : charsetOfBlock (charsetBlock s) = s.charset := by
  obtain ⟨hglyphs, hrows, -⟩ := h
  have hcut := rowsOf_flatten 8 s.charset hrows
  rwa [hglyphs] at hcut

theorem tilesetOfBlock_tilesetBlock (h : Memory.wf s) : tilesetOfBlock (tilesetBlock s) = s.tile := by
  obtain ⟨-, -, -, -, htiles, hcells, -⟩ := h
  have hcut := rowsOf_flatten 64 s.tile hcells
  rwa [htiles, ← packBytes_unpackBytes s.tile.flatten] at hcut

theorem paletteOfBlock_paletteBlock (s : State) : paletteOfBlock (paletteBlock s) = s.pal :=
  packBytes_unpackBytes s.pal

/-- The block a sink holds after a `SAVE*` it accepted is the block that was written (R40). -/
theorem block_eq_of_saveBlock {o : Opcode} {b b' : List Byte} (hsink : nextSink s = .accepts)
    (hsunk : (saveBlock s o b').sunk = s.sunk ++ [.block b]) : b = b' := by
  rw [saveBlock_of_accepts hsink] at hsunk
  simpa using hsunk.symm

/-- A `LOAD*` reads exactly the block its source begins with, whatever follows it (R40). -/
theorem loadBlock_of_append {o : Opcode} {n : Nat} {load : State → List Byte → State} {b more : List Byte}
    (hsrc : nextSource u = .bytes (b ++ more)) (hn : b.length = n) :
    loadBlock u o n load = load (useSource u) b := by
  rw [loadBlock_of_long hsrc (by simp [← hn]), ← hn, List.take_left]

/-- One table's round trip: `block` is how it is laid out and `put` what a `LOAD*` makes of the bytes it read. -/
theorem loadBlock_of_saveBlock {o o' : Opcode} {n : Nat} {put : State → List Byte → State} {block b more : List Byte}
    (hsink : nextSink s = .accepts) (hsrc : nextSource u = .bytes (b ++ more)) (hn : block.length = n)
    (hsunk : (saveBlock s o block).sunk = s.sunk ++ [.block b]) :
    loadBlock u o' n put = put (useSource u) block := by
  obtain rfl := block_eq_of_saveBlock hsink hsunk
  exact loadBlock_of_append hsrc hn

/-- Settles O39: the source begins with the block of `s`, the `LOAD*` takes exactly that block, and the block holds the
table of `s`. -/
theorem savedTablesLoadBack : Obligations.SavedTablesLoadBack := by
  intro s u t t' b more hwf hsink hsrc
  refine ⟨?charset, ?tileset, ?palette⟩ <;> rintro ⟨⟩ hsunk ⟨⟩
  case charset =>
    rw [loadBlock_of_saveBlock hsink hsrc (length_charsetBlock hwf) hsunk]
    exact charsetOfBlock_charsetBlock hwf
  case tileset =>
    rw [loadBlock_of_saveBlock hsink hsrc (length_tilesetBlock hwf) hsunk]
    exact tilesetOfBlock_tilesetBlock hwf
  case palette =>
    rw [loadBlock_of_saveBlock hsink hsrc (length_paletteBlock hwf) hsunk]
    exact paletteOfBlock_paletteBlock s

/-- Settles O41: `displayBytes` unpacks the display words, whose length and bytes are those of `unpackBytes`. -/
theorem displayBytesAreLittleEndian : Obligations.DisplayBytesAreLittleEndian := fun s =>
  ⟨length_unpackBytes s.display, fun a _ _ hj => getD_unpackBytes s.display a hj⟩

end Sys2Proof.Blocks
end

section
/-! The decoder, inverted: when it answers a command, an illegal header or a hold, and what each answer says of the
words (30_encoding.md R42 to R49, R52). -/

namespace Sys2Proof.Decoding

open Sys2Proof.Machine Sys2Proof.Laws

variable {h : Word} {ws rest : List Word}

/-! ### What each of the three answers means -/

/-- A command is a legal header and the body its header asks for, cut off the stream (R45, R52). -/
theorem decode_eq_command_iff {i : Instr} : decode (h :: ws) = .command i rest ↔
    ∃ o body, readHeader h = .ok o ∧ body.length = bodyWords o h ∧ ws = body ++ rest ∧ i = buildInstr o h body := by
  constructor
  · intro hd
    rw [decode] at hd
    cases hr : readHeader h with
    | error why => simp [hr] at hd
    | ok o =>
      by_cases hshort : ws.length < bodyWords o h
      · simp [hr, hshort] at hd
      · simp only [hr, hshort, if_false, Decoded.command.injEq] at hd
        obtain ⟨rfl, rfl⟩ := hd
        exact ⟨o, ws.take (bodyWords o h), rfl, by simp; omega, (List.take_append_drop _ _).symm, rfl⟩
  · rintro ⟨o, body, hr, hlen, rfl, rfl⟩
    exact decode_whole hr hlen rest

/-- An illegal header is cut off alone (R48). -/
theorem decode_eq_illegal_iff {why : IllegalHeader} {w : Word} :
    decode (h :: ws) = .illegal why w rest ↔ readHeader h = .error why ∧ h = w ∧ ws = rest := by
  rw [decode]
  cases readHeader h with
  | error why' => simp
  | ok o => by_cases hshort : ws.length < bodyWords o h <;> simp [hshort]

/-- The decoder holds on an empty stream and on one shorter than `Len` of its first word (R45, R52). -/
theorem decode_eq_hold_iff (ws : List Word) :
    decode ws = .hold ↔ ws = [] ∨ ws.length < headerLen (ws.headD 0#32) := by
  cases ws with
  | nil => simp [decode]
  | cons h ws =>
    cases hr : readHeader h with
    | error why => simp [decode, headerLen, hr]
    | ok o => simp [decode, headerLen, hr, Nat.add_comm 1]

/-! ### The header -/

/-- A header reads as operation `o` exactly when its opcode byte is `o`'s and its flags are legal for `o` (R47, R48). -/
theorem readHeader_eq_ok_iff {o : Opcode} :
    readHeader h = .ok o ↔ hdrOpc h = o.code ∧ flagsLegal o h = true := by
  unfold readHeader
  constructor
  · cases ho : Opcode.ofByte (hdrOpc h) with
    | none => simp
    | some o' =>
      cases hf : flagsLegal o' h with
      | false => simp [hf]
      | true =>
        simp only [hf, if_true, Except.ok.injEq]
        rintro rfl
        exact ⟨(code_of_ofByte ho).symm, hf⟩
  · rintro ⟨ho, hf⟩
    simp [ho, hf]

/-- The payload commands are the two opcode bytes R42 names. -/
theorem hasPayload_iff (o : Opcode) : o.hasPayload = true ↔ o.code = 0x11#8 ∨ o.code = 0x27#8 := by
  cases o <;> decide

/-- `COUNT` is a field of 16 bits (R42). -/
theorem hdrCount_le (h : Word) : hdrCount h ≤ 65535 := Nat.le_of_lt_succ (h.extractLsb' 16 16).isLt

/-- The opcodes written out from R46 are those of the opcode map. -/
theorem mem_specOpcodes_iff {b : Byte} : b ∈ specOpcodes ↔ ∃ o : Opcode, o.code = b := by
  constructor
  · intro hb
    have hmap : b ∈ Opcode.all.map Opcode.code := hb
    obtain ⟨o, -, ho⟩ := List.mem_map.1 hmap
    exact ⟨o, ho⟩
  · rintro ⟨o, rfl⟩
    cases o <;> decide

/-- The decoder's flag test is the flag rule R47. -/
theorem flagsLegal_iff {o : Opcode} (ho : hdrOpc h = o.code) : flagsLegal o h = true ↔ ¬ BreaksFlagRule h := by
  have halign : hdrOpc h ∈ [0x25#8, 0x26#8] ↔ o = .drawTile ∨ o = .drawTileMc := by rw [ho]; cases o <;> decide
  have hindexed : hdrOpc h = 0x26#8 ↔ o = .drawTileMc := by rw [ho]; cases o <;> decide
  have hpayload : hdrOpc h ∈ [0x11#8, 0x27#8] ↔ o.hasPayload = true := by rw [ho]; cases o <;> decide
  have hcount : h.extractLsb' 16 16 = 0#16 ↔ hdrCount h = 0 := BitVec.toNat_inj.symm
  simp only [BreaksFlagRule, ne_eq, halign, hindexed, hpayload, hcount, flagsLegal, hdrAlign, hdrIndexed,
    hdrReserved, Bool.and_eq_true, Bool.or_eq_true, Bool.not_eq_true', beq_iff_eq]
  grind

/-- A reserved opcode is what the decoder refuses first (R48 case (a)). -/
theorem readHeader_of_not_mem (ho : hdrOpc h ∉ specOpcodes) : readHeader h = .error .reservedOpcode := by
  unfold readHeader
  cases hb : Opcode.ofByte (hdrOpc h) with
  | none => rfl
  | some o => exact absurd (mem_specOpcodes_iff.2 ⟨o, code_of_ofByte hb⟩) ho

/-- A known opcode with a broken flag rule is refused for its flags (R48 case (b)). -/
theorem readHeader_of_breaksFlagRule (ho : hdrOpc h ∈ specOpcodes) (hf : BreaksFlagRule h) :
    readHeader h = .error .brokenFlags := by
  obtain ⟨o, ho⟩ := mem_specOpcodes_iff.1 ho
  have hbad : ¬ flagsLegal o h = true := fun hl => (flagsLegal_iff ho.symm).1 hl hf
  simp [readHeader, ← ho, hbad]

/-- A known opcode that keeps the flag rule is read as an operation (R47). -/
theorem readHeader_of_not_breaksFlagRule (ho : hdrOpc h ∈ specOpcodes) (hf : ¬ BreaksFlagRule h) :
    ∃ o, readHeader h = .ok o := by
  obtain ⟨o, ho⟩ := mem_specOpcodes_iff.1 ho
  exact ⟨o, readHeader_eq_ok_iff.2 ⟨ho.symm, (flagsLegal_iff ho.symm).2 hf⟩⟩

/-! ### The command built from a whole body -/

@[simp] theorem opcode_buildInstr (o : Opcode) (h : Word) (body : List Word) :
    (buildInstr o h body).opcode = o := by
  cases o <;> rfl

/-- A body of the header's length spells a well-formed command: `COUNT` bounds a string, 16 words hold the 64
characters of `SETTILE` (R42, R44). -/
theorem wf_buildInstr {o : Opcode} {body : List Word} (hlen : body.length = bodyWords o h) :
    (buildInstr o h body).wf = true := by
  have hcount := hdrCount_le h
  cases o with
  | print | drawString => simp [buildInstr, Instr.wf]; omega
  | setTile =>
    have hbody : body.length = 17 := hlen
    simp [buildInstr, Instr.wf, hbody]
  | _ => rfl

/-! ### The words of a command -/

theorem encoding_statement : ∀ i : Instr, Encoding.Statement i
  | .clear c => Encoding.clear c
  | .setPixel x y c => Encoding.setPixel x y c
  | .present => Encoding.present
  | .drawChar g x y fg bg => Encoding.drawChar g x y fg bg
  | .print x y fg bg str => Encoding.print x y fg bg str
  | .setGlyph g a b => Encoding.setGlyph g a b
  | .loadCharset => Encoding.loadCharset
  | .saveCharset => Encoding.saveCharset
  | .setTile t chars => Encoding.setTile t chars
  | .clearTile t => Encoding.clearTile t
  | .invertTile t => Encoding.invertTile t
  | .setTileCell t k v => Encoding.setTileCell t k v
  | .getTileCell t k => Encoding.getTileCell t k
  | .drawTile align t fg bg x y w h => Encoding.drawTile align t fg bg x y w h
  | .drawTileMc align indexed t x y w h => Encoding.drawTileMc align indexed t x y w h
  | .drawString x y fg bg w h str => Encoding.drawString x y fg bg w h str
  | .genTileset => Encoding.genTileset
  | .loadTileset => Encoding.loadTileset
  | .saveTileset => Encoding.saveTileset
  | .setColorRgb i rgb => Encoding.setColorRgb i rgb
  | .setColorRaw i v => Encoding.setColorRaw i v
  | .getColor i => Encoding.getColor i
  | .genPalette => Encoding.genPalette
  | .loadPalette => Encoding.loadPalette
  | .savePalette => Encoding.savePalette

/-- Every encoding begins with a header word. -/
theorem encode_eq_cons (i : Instr) : encode i = (encode i).headD 0#32 :: (encode i).tail := by
  cases i <;> rfl

/-- The words behind the header of a command are the body its header asks for (R45). -/
theorem length_tail_encode {i : Instr} (hw : i.wf = true) :
    (encode i).tail.length = bodyWords i.opcode ((encode i).headD 0#32) := by
  obtain ⟨hr, hlen⟩ := encoding_statement i hw
  rw [headerLen, hr] at hlen
  rw [List.length_tail, hlen]
  exact Nat.add_sub_cancel_left 1 _

/-- The command built from the words of a command is that command: flags and operands stand where they are read, and
unpacking undoes packing, padding cut off by `COUNT` (R43, R44). -/
theorem buildInstr_encode {i : Instr} (hw : i.wf = true) :
    buildInstr i.opcode ((encode i).headD 0#32) (encode i).tail = i := by
  cases i with
  | print x y fg bg str | drawString x y fg bg w h str =>
    have hlen : str.length ≤ 65535 := by simpa [Instr.wf] using hw
    have hmod : str.length % 65536 = str.length := Nat.mod_eq_of_lt (by omega)
    simp [encode, buildInstr, Instr.opcode, Opcode.nops, hmod, take_unpackBytes_packBytes]
  | setTile t chars =>
    have hlen : chars.length = 64 := by simpa [Instr.wf] using hw
    have hall : (packBytes chars).take 16 = packBytes chars :=
      List.take_of_length_le (by simp [hlen, payloadWords])
    have hunpack : unpackBytes (packBytes chars) = chars := unpackBytes_packBytes (by simp [hlen])
    simp [encode, buildInstr, Instr.opcode, hall, hunpack]
  | drawTile | drawTileMc => simp [encode, buildInstr, Instr.opcode]
  | _ => rfl

/-! ### The statements about the decoder -/

/-- Settles O1: the words of a command are a legal header and a whole body, and the command built from them is the
command itself. -/
theorem decodeInvertsEncode : Obligations.DecodeInvertsEncode := by
  intro i rest hw
  obtain ⟨hr, -⟩ := encoding_statement i hw
  rw [encode_eq_cons i, List.cons_append, decode_whole hr (length_tail_encode hw), buildInstr_encode hw]

/-- Settles O2: a decoded command is built from a legal header and a body of the header's length. -/
theorem decodedCommandHasHeaderLength : Obligations.DecodedCommandHasHeaderLength := by
  intro h ws rest i hd
  obtain ⟨o, body, hr, hlen, hws, rfl⟩ := decode_eq_command_iff.1 hd
  obtain ⟨ho, -⟩ := readHeader_eq_ok_iff.1 hr
  refine ⟨wf_buildInstr hlen, by simpa using ho, body, hws, ?_⟩
  rw [hlen, opcode_buildInstr, ho]
  simp only [← hasPayload_iff]
  rfl

/-- Settles O3: what the decoder cuts off does not reach into the words behind it. -/
theorem pushedWordsDoNotChangeDecoding : Obligations.PushedWordsDoNotChangeDecoding := by
  intro ws more rest
  cases ws with
  | nil => simp [decode]
  | cons h ws =>
    refine ⟨fun i hd => ?command, fun why w hd => ?illegal⟩
    case command =>
      obtain ⟨o, body, hr, hlen, rfl, rfl⟩ := decode_eq_command_iff.1 hd
      exact decode_eq_command_iff.2 ⟨o, body, hr, hlen, List.append_assoc _ _ _, rfl⟩
    case illegal =>
      obtain ⟨hr, hw, rfl⟩ := decode_eq_illegal_iff.1 hd
      exact decode_eq_illegal_iff.2 ⟨hr, hw, rfl⟩

/-- Settles O4: the decoder, run on each of the eight word lists. -/
theorem specWordsDecode : Obligations.SpecWordsDecode := by
  refine ⟨?_, ?_, ?_, ?_, ?_, ?_, ?_, ?_⟩ <;> decide

end Sys2Proof.Decoding
end

section
/-! One step, by what the decoder finds at the head of the stream (00_scope.md R8; 30_encoding.md R48, R52). -/

namespace Sys2Proof.Decoding

open Sys2Proof.Machine Sys2Proof.Laws

variable {s : State} {h : Word} {ws : List Word}

/-- Settles O5: `consume` replaces the stream and nothing else. -/
theorem stepRunsDecodedCommand : Obligations.StepRunsDecodedCommand :=
  fun _ _ _ hd => Scope.step_of_command hd

/-- Settles O6: a step on a stream at which the decoder holds changes nothing. -/
theorem shortStreamHolds : Obligations.ShortStreamHolds := fun s =>
  ⟨fun hshort => Scope.step_of_hold ((decode_eq_hold_iff s.stream).2 hshort), decode_eq_hold_iff s.stream⟩

/-- A step at an illegal header consumes that word alone and records it (R48). -/
theorem step_of_readHeader_error {why : IllegalHeader} (hs : s.stream = h :: ws) (hr : readHeader h = .error why) :
    step s = .next (takeIllegal s why h ws) :=
  Scope.step_of_illegal (by rw [fetch, hs]; exact decode_eq_illegal_iff.2 ⟨hr, rfl, rfl⟩)

/-- What an illegal header leaves behind, in the numbers of 60_exceptions.md R84. -/
theorem takeIllegal_reservedOpcode (s : State) (h : Word) (ws : List Word) :
    takeIllegal s .reservedOpcode h ws = Recorded { s with stream := ws } (hdrOpc h) 1#8 4#8 h := rfl

theorem takeIllegal_brokenFlags (s : State) (h : Word) (ws : List Word) :
    takeIllegal s .brokenFlags h ws = Recorded { s with stream := ws } (hdrOpc h) 2#8 4#8 h := rfl

/-- `SETCOLORRGB` with a non-zero top byte in its colour operand records that operand (44_palette.md R78). -/
theorem exec_setColorRgb_of_badOperand (i : Word) {rgb : Word} (hbad : wordByte rgb 3 ≠ 0#8) (s : State) :
    exec (.setColorRgb i rgb) s = .next (Recorded s 0x30#8 3#8 4#8 rgb) := by
  rw [exec, execSetColorRgb, if_pos hbad]
  rfl

/-- Settles O7: the header is read as the rules of R48 say, and the `SETCOLORRGB` operand is tested by its command. -/
theorem illegalEncodingsAreRecorded : Obligations.IllegalEncodingsAreRecorded := by
  intro s h ws hs
  refine ⟨fun ho => ?reserved, fun ho hf => ?flags, fun ho hf why rest hd => ?legal, ?operand⟩
  case reserved => rw [step_of_readHeader_error hs (readHeader_of_not_mem ho), takeIllegal_reservedOpcode]
  case flags => rw [step_of_readHeader_error hs (readHeader_of_breaksFlagRule ho hf), takeIllegal_brokenFlags]
  case legal =>
    obtain ⟨o, hok⟩ := readHeader_of_not_breaksFlagRule ho hf
    rw [hs] at hd
    obtain ⟨herr, -, -⟩ := decode_eq_illegal_iff.1 hd
    simp [hok] at herr
  case operand =>
    rintro i rgb rest rfl rfl hbad
    have hfetch : fetch s = .command (.setColorRgb i rgb) rest := by
      rw [fetch, hs]
      exact decode_whole (o := .setColorRgb) (body := [i, rgb]) (by rfl) rfl rest
    rw [Scope.step_of_command hfetch]
    exact exec_setColorRgb_of_badOperand i hbad _

end Sys2Proof.Decoding
end

section
/-! The assembler text (30_encoding.md R50). -/

namespace Sys2Proof.Assembler

open Sys2Proof.Machine

/-- Settles O49: the assembler, run on each of the six lines. -/
theorem assemblerExamplesGiveSpecWords : Obligations.AssemblerExamplesGiveSpecWords := by
  refine ⟨?_, ?_, ?_, ?_, ?_, ?_⟩ <;> decide +kernel

end Sys2Proof.Assembler
end

section
/-! Framebuffer control (40_framebuffer.md R53 to R56): the clipped write sink, `SETPIXEL`, `PRESENT`,
`CLEAR`. Each command's words are those `encode` gives it, so the decoder's round trip reads them back. -/

namespace Sys2Proof.Framebuffer

open Sys2Proof.Machine Sys2Proof.Laws

variable {s : State}

/-! ### The clipped write (R53) -/

theorem putPixel_of_offScreen {x y : Int} (c : Word)
    (hoff : ¬ (0 ≤ x ∧ x < s.cfg.screenW ∧ 0 ≤ y ∧ y < s.cfg.screenH)) : putPixel s x y c = s :=
  if_neg hoff

/-- Settles O12: the write replaces one word of one row, or leaves the state alone. -/
theorem putPixelIsClipped : Obligations.PutPixelIsClipped := by
  intro s x y c hwf
  have hshape := fb_shape hwf
  obtain ⟨honly, -, -⟩ := upd_putPixel hshape x y c
  exact ⟨honly, putPixel_wf hwf x y c, fun _ _ => pixel_putPixel hshape x y c, putPixel_of_offScreen c⟩

/-! ### `SETPIXEL` (R55) -/

/-- Settles O13: `SETPIXEL` is the clipped write at its signed coordinates. -/
theorem setPixelWritesOnePixel : Obligations.SetPixelWritesOnePixel := by
  intro x y c s hwf
  obtain ⟨honly, hwf', hpixel, -⟩ := putPixelIsClipped s (coord x) (coord y) c hwf
  exact ⟨fun rest => Decoding.decodeInvertsEncode (.setPixel x y c) rest rfl, _, rfl, honly, hwf', hpixel⟩

/-! ### `PRESENT` (R56) -/

/-- The words `PRESENT` puts into `DISPLAY`. -/
def presented (s : State) : List Word :=
  match s.cfg.rowOrder with
  | .topDown => s.fb.flatten
  | .bottomUp => s.fb.reverse.flatten

theorem exec_present (s : State) : exec .present s = .next (s.setDisplay (presented s)) := rfl

theorem presented_setDisplay (s : State) (v : List Word) : presented (s.setDisplay v) = presented s := rfl

theorem length_presented (hwf : Memory.wf s) : (presented s).length = s.cfg.screenW * s.cfg.screenH := by
  have hlen := StateRules.length_flatten_fb hwf
  unfold presented
  split
  · exact hlen
  · rwa [(List.reverse_perm s.fb).flatten.length_eq]

/-- Word `DispIndex(x, y)` is pixel `(x, y)` (20_memory.md R32): the rows lie end to end, from the last one up if the
row order is `BOTTOM_UP`. -/
theorem getD_presented (hwf : Memory.wf s) {x y : Nat} (hx : x < s.cfg.screenW) (hy : y < s.cfg.screenH) :
    (presented s).getD (dispIndex s.cfg x y) 0#32 = pixel s x y := by
  obtain ⟨hrows, hcols⟩ := fb_shape hwf
  cases ho : s.cfg.rowOrder with
  | topDown =>
    simp only [presented, dispIndex, ho]
    exact getD_flatten_rows _ _ hcols y x _ hx
  | bottomUp =>
    have hcols' : ∀ r ∈ s.fb.reverse, r.length = s.cfg.screenW := fun r hr => hcols r (List.mem_reverse.1 hr)
    have hrow : s.fb.length - 1 - (s.cfg.screenH - 1 - y) = y := by omega
    simp only [presented, dispIndex, ho]
    rw [getD_flatten_rows _ _ hcols' _ x _ hx, List.getD_reverse _ (by omega), hrow]
    rfl

/-- Settles O14: the rows in row order, end to end, are the display words, and they depend on `FB` alone. -/
theorem presentCopiesEveryPixel : Obligations.PresentCopiesEveryPixel := fun s hwf =>
  ⟨fun rest => Decoding.decodeInvertsEncode .present rest rfl, s.setDisplay (presented s), exec_present s, rfl,
    length_presented hwf, fun _ _ hx hy => getD_presented hwf hx hy,
    by rw [exec_present, presented_setDisplay]; rfl⟩

/-! ### `CLEAR` (R54) -/

theorem pixelOf_replicate (c : Word) {w h x y : Nat} (hx : x < w) (hy : y < h) :
    pixelOf (List.replicate h (List.replicate w c)) x y = c := by
  rw [pixelOf, List.getD_replicate _ hy, List.getD_replicate _ hx]

/-- Settles O11: the new framebuffer is `SCREEN_H` equal rows of `SCREEN_W` times the colour. -/
theorem clearFillsEveryPixel : Obligations.ClearFillsEveryPixel := fun c _ =>
  ⟨fun rest => Decoding.decodeInvertsEncode (.clear c) rest rfl, _, rfl, rfl, List.length_replicate,
    fun _ hrow => by rw [List.eq_of_mem_replicate hrow, List.length_replicate],
    fun _ _ hx hy => pixelOf_replicate c hx hy⟩

end Sys2Proof.Framebuffer
end

section
/-! The font rasterizer and the charset (41_font.md R57 to R62): `DRAWCHAR`, `PRINT`, `SETGLYPH`, `LOADCHARSET`,
`SAVECHARSET`. -/

namespace Sys2Proof.Font

open Sys2Proof.Machine Sys2Proof.Laws

variable {s : State}

/-! ### `DRAWCHAR` (R57, R58) -/

/-- Settles O15: past the index check the command draws the glyph as one grid, which is what the loops leave. -/
theorem drawCharIsItsPixelLoop : Obligations.DrawCharIsItsPixelLoop := by
  intro g x y fg bg s hwf
  refine ⟨fun rest => Decoding.decodeInvertsEncode (.drawChar g x y fg bg) rest rfl, ?_⟩
  rw [loopDrawChar_eq (fb_shape hwf)]
  rfl

/-! ### `PRINT` (R59) -/

/-- The header of a `PRINT` is legal whatever its `COUNT` (30_encoding.md R47). -/
theorem readHeader_print (n : Nat) : readHeader (makeHeader .print false false n) = .ok .print :=
  readHeader_makeHeader (by simp [flagsLegal, Opcode.hasPayload])

/-- A `PRINT` header before the operands and a payload that spells `str` is that command, whatever the padding bytes
hold (30_encoding.md R44). -/
theorem decode_print (x y fg bg : Word) {str : List Byte} (hlen : str.length ≤ 65535) {ws : List Word}
    (hws : PayloadSpells ws str) (rest : List Word) :
    decode (makeHeader .print false false str.length :: x :: y :: fg :: bg :: (ws ++ rest))
      = .command (.print x y fg bg str) rest := by
  have hcount : hdrCount (makeHeader .print false false str.length) = str.length := by
    rw [hdrCount_makeHeader, Nat.mod_eq_of_lt (by omega)]
  have hbody : (x :: y :: fg :: bg :: ws).length = bodyWords .print (makeHeader .print false false str.length) := by
    obtain ⟨hwords, -⟩ := hws
    simp [bodyWords, hcount, Opcode.hasPayload, Opcode.nops, payloadWords, hwords]
    omega
  have hstr : (unpackBytes ((x :: y :: fg :: bg :: ws).drop (Opcode.nops .print))).take
      (hdrCount (makeHeader .print false false str.length)) = str := by
    rw [hcount]
    exact take_of_payloadSpells hws
  have hdecode := decode_whole (readHeader_print str.length) hbody rest
  rw [buildInstr, hstr] at hdecode
  exact hdecode

/-- The loop over the first `n` characters reads no other character. -/
theorem loopPrint_take (n : Nat) (str : List Byte) (x y : Int) (fg bg : Word) (s : State) :
    loopPrint n (str.take n) x y fg bg s = loopPrint n str x y fg bg s :=
  forTo_congr fun _ hi _ => by rw [getD_take _ _ hi]

/-- The characters before the first NUL, drawn one after the other, are what the loop over the effective length
leaves. -/
theorem loopPrint_eq_drawGlyphs (hwf : Memory.wf s) {str : List Byte} {n : Nat} (hn : IsStrLen str n) (x y : Int)
    (fg bg : Word) : loopPrint n str x y fg bg s = s.setFb (drawGlyphs s y fg bg x (effective str) s.fb) := by
  have hchars := effective_eq_take hn
  obtain ⟨hle, -⟩ := hn
  have hloop := loopPrint_eq (fb_shape hwf) (str.take n) x y fg bg
  rwa [List.length_take_of_le hle, loopPrint_take, ← hchars] at hloop

/-- Settles O16: the words decode by the payload's spelling, and the characters drawn are those of the effective
length. -/
theorem printDrawsEachCharacter : Obligations.PrintDrawsEachCharacter := by
  intro x y fg bg str n s hwf hlen hn
  refine ⟨fun ws rest hws => ?_, ?_⟩
  · rw [ofNat_eq_makeHeader .print _ rfl (by decide)]
    exact decode_print x y fg bg hlen hws rest
  · rw [loopPrint_eq_drawGlyphs hwf hn]
    rfl

/-! ### `SETGLYPH` (R60) -/

theorem exec_setGlyph_of_ge {g : Word} (hg : 256 ≤ g.toNat) (a b : Word) (s : State) :
    exec (.setGlyph g a b) s = .next (Recorded s 0x12#8 1#8 2#8 g) := by
  rw [exec, execSetGlyph, if_pos hg]
  rfl

theorem exec_setGlyph_of_lt {g : Word} (hg : g.toNat < 256) (a b : Word) (s : State) :
    exec (.setGlyph g a b) s = .next (setGlyphRows s g.toNat (glyphRows a b)) := by
  rw [exec, execSetGlyph, if_neg (Nat.not_le.2 hg)]

/-- Rows 0 to 3 are the bytes of the first word. -/
theorem getD_glyphRows_low (a b : Word) {r : Nat} (hr : r < 4) :
    (glyphRows a b).getD r 0#8 = a.extractLsb' (8 * r) 8 := by
  have hbyte := getD_unpackBytes [a, b] 0 hr
  rwa [Nat.mul_zero, Nat.zero_add] at hbyte

/-- Rows 4 to 7 are the bytes of the second word. -/
theorem getD_glyphRows_high (a b : Word) {r : Nat} (hr : r < 4) :
    (glyphRows a b).getD (4 + r) 0#8 = b.extractLsb' (8 * r) 8 :=
  getD_unpackBytes [a, b] 1 hr

/-- Settles O17: an index of 256 or more is recorded; any other glyph is replaced by the eight bytes of the operands. -/
theorem setGlyphWritesEightRows : Obligations.SetGlyphWritesEightRows := by
  intro g a b s hwf
  refine ⟨fun rest => Decoding.decodeInvertsEncode (.setGlyph g a b) rest rfl,
    fun hg => exec_setGlyph_of_ge hg a b s,
    fun hg => ⟨_, exec_setGlyph_of_lt hg a b s, rfl, setGlyphRows_wf hwf _ rfl, fun r hr => ?low, fun r hr => ?high,
      fun g' r hne => ?other⟩⟩
  case low => rw [charRow_setGlyphRows hwf hg, if_pos rfl, getD_glyphRows_low a b hr]
  case high => rw [charRow_setGlyphRows hwf hg, if_pos rfl, getD_glyphRows_high a b hr]
  case other => rw [charRow_setGlyphRows hwf hg, if_neg hne]

/-! ### `LOADCHARSET` and `SAVECHARSET` (R61, R62, with the block layout of 20_memory.md R29) -/

theorem exec_loadCharset (s : State) : exec .loadCharset s
    = .next (loadBlock s .loadCharset 2048 fun u b => u.setCharset (charsetOfBlock b)) := rfl

theorem exec_saveCharset (s : State) : exec .saveCharset s = .next (saveBlock s .saveCharset (charsetBlock s)) := rfl

/-- A source of at least 2048 bytes loads the charset its first 2048 bytes hold. -/
theorem exec_loadCharset_of_long {b : List Byte} (hsrc : nextSource s = .bytes b) (hb : 2048 ≤ b.length) :
    exec .loadCharset s = .next ((useSource s).setCharset (charsetOfBlock (b.take 2048))) := by
  rw [exec_loadCharset, loadBlock_of_long hsrc hb]

/-- Byte `8g + r` of a charset block is row `r` of glyph `g` of the charset it holds (R29). -/
theorem charRow_charsetOfBlock (s : State) (b : List Byte) {g r : Nat} (hg : g < 256) (hr : r < 8) :
    charRow (s.setCharset (charsetOfBlock b)) g r = b.getD (8 * g + r) 0#8 :=
  getD_rowsOf 8 256 b g r 0#8 hg hr

/-- Settles O18: each source is one case of the block port, and a long one is cut into rows of eight bytes. -/
theorem loadCharsetReadsBlock : Obligations.LoadCharsetReadsBlock := by
  intro s
  refine ⟨fun rest => Decoding.decodeInvertsEncode .loadCharset rest rfl, fun hsrc => ?unopenable,
    fun hsrc => ?unreadable, fun b hsrc => ⟨fun hb => ?short, fun hb => ?long⟩⟩
  case unopenable => rw [exec_loadCharset, loadBlock_of_unopenable hsrc]; rfl
  case unreadable => rw [exec_loadCharset, loadBlock_of_unreadable hsrc]; rfl
  case short => rw [exec_loadCharset, loadBlock_of_short hsrc hb]; rfl
  case long =>
    obtain ⟨hglyphs, hrows⟩ := charsetOfBlock_wf (List.length_take_of_le hb)
    refine ⟨_, exec_loadCharset_of_long hsrc hb, rfl, hglyphs, hrows, fun g r hg hr => ?_⟩
    rw [charRow_charsetOfBlock _ _ hg hr, getD_take _ _ (by omega)]

/-- Settles O19: each sink is one case of the block port, and the block is the glyphs laid end to end. -/
theorem saveCharsetWritesBlock : Obligations.SaveCharsetWritesBlock := by
  intro s hwf
  have hlen := length_charsetBlock hwf
  obtain ⟨-, hrows, -⟩ := hwf
  refine ⟨fun rest => Decoding.decodeInvertsEncode .saveCharset rest rfl, fun hsink => ?accepts,
    fun hsink => ?unopenable, fun hsink => ?unwritable⟩
  case accepts =>
    refine ⟨charsetBlock s, ?_, hlen, fun g r _ hr => getD_flatten_rows 8 _ hrows g r _ hr⟩
    rw [exec_saveCharset, saveBlock_of_accepts hsink]
  case unopenable => rw [exec_saveCharset, saveBlock_of_unopenable hsink]; rfl
  case unwritable => rw [exec_saveCharset, saveBlock_of_unwritable hsink]; rfl

end Sys2Proof.Font
end

section
/-! Tile data (42_tiles.md R64 to R71): `SETTILE`, `CLEARTILE`, `INVERTTILE`, `SETTILECELL`, `GETTILECELL`,
`GENTILESET`, `LOADTILESET`, `SAVETILESET`. For each command its equations first, a fault in the numbers of
60_exceptions.md R84, then what the table reads after it. -/

namespace Sys2Proof.Tiles

open Sys2Proof.Machine Sys2Proof.Laws

variable {s : State}

/-! ### `SETTILE` (R64) -/

/-- Whole payload words have no padding, so the bytes they spell determine them (30_encoding.md R44). -/
theorem eq_packBytes_of_payloadSpells {ws : List Word} {str : List Byte} (hws : PayloadSpells ws str)
    (hstr : str.length % 4 = 0) : ws = packBytes str := by
  have htake := take_of_payloadSpells hws
  obtain ⟨hlen, -⟩ := hws
  have hall : (unpackBytes ws).length ≤ str.length := by rw [length_unpackBytes]; omega
  rw [List.take_of_length_le hall] at htake
  rw [← htake, packBytes_unpackBytes]

/-- The position of the first of 64 characters that stands for no cell. -/
def firstBadChar (tMark : Word) (ch : List Byte) : Option Nat :=
  (List.range 64).find? fun i => (charCell tMark (ch.getD i 0#8)).isNone

/-- The cells that 64 characters stand for. -/
def charCells (tMark : Word) (ch : List Byte) : List Word :=
  (List.range 64).map fun i => (charCell tMark (ch.getD i 0#8)).getD 0#32

theorem exec_setTile_of_ge {t : Word} (ht : 768 ≤ t.toNat) (ch : List Byte) (s : State) :
    exec (.setTile t ch) s = .next (Recorded s 0x20#8 2#8 2#8 t) := by
  rw [exec, execSetTile, if_pos ht]
  rfl

theorem exec_setTile_of_badChar {t : Word} (ht : t.toNat < 768) {ch : List Byte} {i : Nat}
    (hbad : firstBadChar s.cfg.tMark ch = some i) :
    exec (.setTile t ch) s = .next (Recorded s 0x20#8 1#8 3#8 (BitVec.ofNat 32 i)) := by
  rw [firstBadChar] at hbad
  rw [exec, execSetTile, if_neg (Nat.not_le.2 ht), hbad]
  rfl

theorem exec_setTile_of_good {t : Word} (ht : t.toNat < 768) {ch : List Byte}
    (hgood : firstBadChar s.cfg.tMark ch = none) :
    exec (.setTile t ch) s = .next (setTileCells s t.toNat (charCells s.cfg.tMark ch)) := by
  rw [firstBadChar] at hgood
  rw [exec, execSetTile, if_neg (Nat.not_le.2 ht), hgood]
  rfl

theorem charCell_isNone_eq_false {ch : Byte} (hch : ch ∈ [0x30#8, 0x31#8, 0x20#8]) (tMark : Word) :
    (charCell tMark ch).isNone = false :=
  Bool.eq_false_iff.2 fun hnone => (charCell_isNone_iff tMark ch).1 hnone hch

theorem firstBadChar_eq_some {ch : List Byte} {i : Nat} (hi : i < 64)
    (hbad : ch.getD i 0#8 ∉ [0x30#8, 0x31#8, 0x20#8])
    (hfirst : ∀ j < i, ch.getD j 0#8 ∈ [0x30#8, 0x31#8, 0x20#8]) (tMark : Word) :
    firstBadChar tMark ch = some i :=
  (find?_range_eq_some_iff _ _ _).2 ⟨hi, (charCell_isNone_iff tMark _).2 hbad,
    fun j hj => charCell_isNone_eq_false (hfirst j hj) tMark⟩

theorem firstBadChar_eq_none {ch : List Byte} (hgood : ∀ i < 64, ch.getD i 0#8 ∈ [0x30#8, 0x31#8, 0x20#8])
    (tMark : Word) : firstBadChar tMark ch = none :=
  (find?_range_eq_none_iff _ _).2 fun i hi => charCell_isNone_eq_false (hgood i hi) tMark

theorem length_charCells (tMark : Word) (ch : List Byte) : (charCells tMark ch).length = 64 := by
  rw [charCells, List.length_map, List.length_range]

/-- The three characters stand for OFF, ON and transparent. -/
theorem charCell_getD {ch : Byte} (hch : ch ∈ [0x30#8, 0x31#8, 0x20#8]) (tMark : Word) :
    (charCell tMark ch).getD 0#32 = if ch = 0x30#8 then 0#32 else if ch = 0x31#8 then 1#32 else tMark := by
  unfold charCell
  split_ifs with hoff hon htransparent
  · rfl
  · rfl
  · rfl
  · simp [hoff, hon, htransparent] at hch

theorem getD_charCells (tMark : Word) (ch : List Byte) {i : Nat} (hi : i < 64) :
    (charCells tMark ch).getD i 0#32 = (charCell tMark (ch.getD i 0#8)).getD 0#32 := by
  rw [List.getD_eq_getElem _ _ (by rwa [length_charCells])]
  simp only [charCells, List.getElem_map, List.getElem_range]

/-- Settles O20: 64 characters fill whole words; then the index check, the search for a bad character, and one tile
written with the cells the characters stand for. -/
theorem setTileStoresCharacters : Obligations.SetTileStoresCharacters := by
  intro t ch s hwf hlen
  refine ⟨fun ws rest hws => ?decode, fun ht => exec_setTile_of_ge ht ch s,
    fun ht i hi hbad hfirst => exec_setTile_of_badChar ht (firstBadChar_eq_some hi hbad hfirst _),
    fun ht hgood => ⟨_, exec_setTile_of_good ht (firstBadChar_eq_none hgood _), rfl,
      setTileCells_wf hwf _ (length_charCells _ _), fun i hi => ?cells, fun u k hne => ?others⟩⟩
  case decode =>
    rw [eq_packBytes_of_payloadSpells hws (by rw [hlen])]
    exact Decoding.decodeInvertsEncode (.setTile t ch) rest (by simp [Instr.wf, hlen])
  case cells => rw [cell_setTileCells hwf ht, if_pos rfl, getD_charCells _ _ hi, charCell_getD (hgood i hi)]
  case others => rw [cell_setTileCells hwf ht, if_neg hne]

/-! ### `CLEARTILE` (R65) -/

theorem exec_clearTile (t : Word) (s : State) : exec (.clearTile t) s
    = .next (if 768 ≤ t.toNat then Recorded s 0x21#8 2#8 2#8 t
      else setTileCells s t.toNat (List.replicate 64 0#32)) := rfl

/-- Settles O21: the index check, then one tile written with 64 zero cells. -/
theorem clearTileZeroesCells : Obligations.ClearTileZeroesCells := by
  intro t s hwf
  rw [exec_clearTile]
  refine ⟨fun rest => Decoding.decodeInvertsEncode (.clearTile t) rest rfl, fun ht => by rw [if_pos ht], fun ht => ?_⟩
  rw [if_neg (Nat.not_le.2 ht)]
  refine ⟨_, rfl, rfl, setTileCells_wf hwf _ List.length_replicate, fun k hk => ?cells, fun u k hne => ?others⟩
  case cells => rw [cell_setTileCells hwf ht, if_pos rfl, List.getD_replicate _ hk]
  case others => rw [cell_setTileCells hwf ht, if_neg hne]

/-! ### `INVERTTILE` (R66) -/

/-- The state with tile `t` inverted, cell by cell. -/
def inverted (s : State) (t : Nat) : State := setTileCells s t ((s.tile.getD t []).map invertCell)

theorem exec_invertTile_of_ge {t : Word} (ht : 768 ≤ t.toNat) (s : State) :
    exec (.invertTile t) s = .next (Recorded s 0x22#8 2#8 2#8 t) := by
  rw [exec, execInvertTile, if_pos ht]
  rfl

theorem exec_invertTile_of_badCell {t : Word} (ht : t.toNat < 768) {k : Nat} (hbad : FirstBad s t.toNat k) :
    exec (.invertTile t) s = .next (Recorded s 0x22#8 2#8 3#8 (BitVec.ofNat 32 (64 * t.toNat + k))) := by
  rw [exec, execInvertTile, if_neg (Nat.not_le.2 ht), bicolorFault_eq_some hbad]
  rfl

theorem exec_invertTile_of_bicolor {t : Word} (ht : t.toNat < 768) (hbi : BicolorTile s t.toNat) :
    exec (.invertTile t) s = .next (inverted s t.toNat) := by
  rw [exec, execInvertTile, if_neg (Nat.not_le.2 ht), bicolorFault_eq_none hbi]
  rfl

theorem inverted_wf (hwf : Memory.wf s) {t : Nat} (ht : t < 768) : Memory.wf (inverted s t) :=
  setTileCells_wf hwf t (by rw [List.length_map, tile_length hwf ht])

theorem cell_inverted_same (hwf : Memory.wf s) {t : Nat} (ht : t < 768) {k : Nat} (hk : k < 64) :
    cell (inverted s t) t k = invertCell (cell s t k) := by
  have hk' : k < (s.tile.getD t []).length := by rwa [tile_length hwf ht]
  rw [inverted, cell_setTileCells hwf ht, if_pos rfl, cell, List.getD_eq_getElem _ _ (by rwa [List.length_map]),
    List.getElem_map, List.getD_eq_getElem _ _ hk']

theorem cell_inverted_other (hwf : Memory.wf s) {t : Nat} (ht : t < 768) {u : Nat} (hne : u ≠ t) (k : Nat) :
    cell (inverted s t) u k = cell s u k := by
  rw [inverted, cell_setTileCells hwf ht, if_neg hne]

/-- Of a bicolor cell, inverting keeps only the transparent value. -/
theorem invertCell_of_bicolor {t k : Nat} (hbi : ¬ NotBicolor s t k) : invertCell (cell s t k)
    = if cell s t k = 0#32 then 1#32 else if cell s t k = 1#32 then 0#32 else s.cfg.tMark := by
  unfold invertCell
  split_ifs with hoff hon
  · rfl
  · rfl
  · by_contra hne
    exact hbi ⟨hoff, hon, hne⟩

/-- Settles O22: the index check, the bicolor check, then every cell of one tile inverted. -/
theorem invertTileSwapsOnAndOff : Obligations.InvertTileSwapsOnAndOff := by
  intro t s hwf
  refine ⟨fun rest => Decoding.decodeInvertsEncode (.invertTile t) rest rfl, fun ht => exec_invertTile_of_ge ht s,
    fun ht k hbad => exec_invertTile_of_badCell ht hbad,
    fun ht hbi => ⟨_, exec_invertTile_of_bicolor ht hbi, rfl, inverted_wf hwf ht, fun k hk => ?_,
      fun u k hne => cell_inverted_other hwf ht hne k⟩⟩
  rw [cell_inverted_same hwf ht hk, invertCell_of_bicolor (hbi k hk)]

theorem invertCell_invertCell (v : Word) : invertCell (invertCell v) = v := by
  by_cases hoff : v = 0#32
  · simp [invertCell, hoff]
  · by_cases hon : v = 1#32
    · simp [invertCell, hon]
    · simp [invertCell, hoff, hon]

/-- An inverted bicolor tile is a bicolor tile. -/
theorem inverted_bicolor (hwf : Memory.wf s) {t : Nat} (ht : t < 768) (hbi : BicolorTile s t) :
    BicolorTile (inverted s t) t := by
  rintro k hk ⟨hoff, hon, hmark⟩
  rw [cell_inverted_same hwf ht hk, invertCell_of_bicolor (hbi k hk)] at hoff hon hmark
  split_ifs at hoff hon hmark
  · exact hon rfl
  · exact hoff rfl
  · exact hmark rfl

/-- Inverting a tile twice writes back the cells it had. -/
theorem inverted_inverted (hwf : Memory.wf s) {t : Nat} (ht : t < 768) : inverted (inverted s t) t = s := by
  obtain ⟨-, -, -, -, htiles, -⟩ := hwf
  have ht' : t < s.tile.length := by rwa [htiles]
  have hcells : (inverted s t).tile.getD t [] = (s.tile.getD t []).map invertCell := by
    rw [inverted, setTileCells_tile, getD_set _ _ _ _ _ ht', if_pos rfl]
  have htwice : ((s.tile.getD t []).map invertCell).map invertCell = s.tile[t] := by
    rw [List.map_map, List.getD_eq_getElem _ _ ht']
    exact List.map_id'' invertCell_invertCell _
  rw [inverted, hcells, htwice]
  simp [inverted, setTileCells, State.setTile]

/-- Settles O23: the inverted tile passes the bicolor check again, and inverting is its own inverse. -/
theorem invertTwiceRestoresState : Obligations.InvertTwiceRestoresState := by
  intro t s _ hwf ht hbi
  refine ⟨_, exec_invertTile_of_bicolor ht hbi, ?_⟩
  rw [exec_invertTile_of_bicolor ht (inverted_bicolor hwf ht hbi), inverted_inverted hwf ht]

/-! ### `SETTILECELL` and `GETTILECELL` (R67, R68) -/

theorem exec_setTileCell (t k v : Word) (s : State) : exec (.setTileCell t k v) s
    = .next (if 768 ≤ t.toNat then Recorded s 0x23#8 2#8 2#8 t
      else if 64 ≤ k.toNat then Recorded s 0x23#8 4#8 2#8 k
      else setCell s t.toNat k.toNat v) := rfl

/-- Reading a cell after one cell has been written. -/
theorem cell_setCell (hwf : Memory.wf s) {t k : Nat} (ht : t < 768) (hk : k < 64) (v : Word) (u j : Nat) :
    cell (setCell s t k v) u j = if u = t ∧ j = k then v else cell s u j := by
  rw [setCell, cell_setTileCells hwf ht, getD_set _ _ _ _ _ (by rwa [tile_length hwf ht])]
  by_cases hu : u = t
  · subst hu
    simp [cell, eq_comm]
  · simp [hu]

/-- Settles O24: the tile check, the cell check, then one cell written. -/
theorem setTileCellWritesOneCell : Obligations.SetTileCellWritesOneCell := by
  intro t k v s hwf
  rw [exec_setTileCell]
  refine ⟨fun rest => Decoding.decodeInvertsEncode (.setTileCell t k v) rest rfl, fun ht => by rw [if_pos ht],
    fun ht hk => by rw [if_neg (Nat.not_le.2 ht), if_pos hk], fun ht hk => ?_⟩
  rw [if_neg (Nat.not_le.2 ht), if_neg (Nat.not_le.2 hk)]
  exact ⟨_, rfl, rfl, setCell_wf hwf ht _ v, cell_setCell hwf ht hk v⟩

/-- Settles O25: the tile check, the cell check, then the cell read into `RESULT`. -/
theorem getTileCellReadsCell : Obligations.GetTileCellReadsCell := fun t k _ =>
  ⟨fun rest => Decoding.decodeInvertsEncode (.getTileCell t k) rest rfl, rfl⟩

/-! ### `GENTILESET` (R69) -/

/-- Settles O26: the table written is `DEFAULT_TILESET` itself. -/
theorem genTilesetWritesDefault : Obligations.GenTilesetWritesDefault := fun _ =>
  ⟨fun rest => Decoding.decodeInvertsEncode .genTileset rest rfl, _, rfl, rfl, fun _ _ _ _ => rfl⟩

/-! ### `LOADTILESET` and `SAVETILESET` (R70, R71, with the block layout of 20_memory.md R28 and R30) -/

theorem exec_loadTileset (s : State) : exec .loadTileset s
    = .next (loadBlock s .loadTileset 196608 fun u b => u.setTile (tilesetOfBlock b)) := rfl

theorem exec_saveTileset (s : State) : exec .saveTileset s = .next (saveBlock s .saveTileset (tilesetBlock s)) := rfl

/-- Cell `k` of tile `t` of the tileset a block holds is its bytes from `4(64t + k)` on, least significant first. -/
theorem cell_tilesetOfBlock (s : State) {b : List Byte} (hb : b.length = 196608) {t k : Nat} (ht : t < 768)
    (hk : k < 64) : cell (s.setTile (tilesetOfBlock b)) t k =
      b.getD (4 * (64 * t + k) + 3) 0#8 ++ b.getD (4 * (64 * t + k) + 2) 0#8 ++
        b.getD (4 * (64 * t + k) + 1) 0#8 ++ b.getD (4 * (64 * t + k)) 0#8 :=
  (getD_rowsOf 64 768 (packBytes b) t k 0#32 ht hk).trans (getD_packBytes b (by omega))

/-- Byte `4(64t + k) + j` of the tileset block is byte `j` of cell `k` of tile `t`. -/
theorem getD_tilesetBlock (hwf : Memory.wf s) (t : Nat) {k j : Nat} (hk : k < 64) (hj : j < 4) :
    (tilesetBlock s).getD (4 * (64 * t + k) + j) 0#8 = (cell s t k).extractLsb' (8 * j) 8 := by
  obtain ⟨-, -, -, -, -, hcells, -⟩ := hwf
  rw [tilesetBlock, getD_unpackBytes _ _ hj, getD_flatten_rows 64 _ hcells t k _ hk]
  rfl

/-- Settles O27: each source is one case of the block port, and a long one is packed into words and cut into tiles. -/
theorem loadTilesetReadsBlock : Obligations.LoadTilesetReadsBlock := by
  intro s
  refine ⟨fun rest => Decoding.decodeInvertsEncode .loadTileset rest rfl, fun hsrc => ?unopenable,
    fun hsrc => ?unreadable, fun b hsrc => ⟨fun hb => ?short, fun hb => ?long⟩⟩ <;> rw [exec_loadTileset]
  case unopenable => rw [loadBlock_of_unopenable hsrc]; rfl
  case unreadable => rw [loadBlock_of_unreadable hsrc]; rfl
  case short => rw [loadBlock_of_short hsrc hb]; rfl
  case long =>
    have hlen : (b.take 196608).length = 196608 := List.length_take_of_le hb
    obtain ⟨htiles, hcells⟩ := tilesetOfBlock_wf hlen
    refine ⟨_, by rw [loadBlock_of_long hsrc hb], rfl, htiles, hcells, fun t k ht hk => ?_⟩
    rw [cell_tilesetOfBlock _ hlen ht hk, getD_take _ _ (by omega), getD_take _ _ (by omega), getD_take _ _ (by omega),
      getD_take _ _ (by omega)]

/-- Settles O28: each sink is one case of the block port, and the block is the cells unpacked into bytes. -/
theorem saveTilesetWritesBlock : Obligations.SaveTilesetWritesBlock := by
  intro s hwf
  refine ⟨fun rest => Decoding.decodeInvertsEncode .saveTileset rest rfl, fun hsink => ?accepts,
    fun hsink => ?unopenable, fun hsink => ?unwritable⟩ <;> rw [exec_saveTileset]
  case accepts =>
    rw [saveBlock_of_accepts hsink]
    exact ⟨_, rfl, length_tilesetBlock hwf, fun t _ _ _ hk hj => getD_tilesetBlock hwf t hk hj⟩
  case unopenable => rw [saveBlock_of_unopenable hsink]; rfl
  case unwritable => rw [saveBlock_of_unwritable hsink]; rfl

end Sys2Proof.Tiles
end

section
/-! The tile scaler (43_tile_draw.md R72 to R76): `DRAWTILE`, `DRAWTILEMC`, `DRAWSTRING`. For each command its equations
first, a fault in the numbers of 60_exceptions.md R84, then the draw, which is what the loops of its rule leave. -/

namespace Sys2Proof.TileDraw

open Sys2Proof.Machine Sys2Proof.Laws

variable {s : State}

/-! ### The geometry (R72) -/

/-- Settles O29: the origin is the size times the quotient of the coordinate, and both remainders are small. -/
theorem alignedOriginIsGridCell : Obligations.AlignedOriginIsGridCell := by
  intro x w hw
  have hdiv : origin true x w = w * (x / w) := by
    rw [origin, if_pos rfl, Int.fdiv_eq_ediv_of_nonneg x (by omega)]
  have hrem : w * (x / w) + x % w = x := Int.mul_ediv_add_emod x w
  have hrem_nonneg : 0 ≤ x % w := Int.emod_nonneg x (by omega)
  have hrem_lt : x % w < w := Int.emod_lt_of_pos x (by omega)
  have hblock : blockSize w = w / 8 := Int.tdiv_eq_ediv_of_nonneg (by omega)
  rw [hdiv, hblock]
  exact ⟨⟨_, rfl⟩, by omega, by omega, rfl, by omega, by omega⟩

/-- Two draws agree where both do nothing for an empty size and they agree for every block of at least one pixel. -/
theorem ite_emptySize_congr {bw bh : Int} {t u : State} (h : 0 < bw.toNat → 0 < bh.toNat → t = u) :
    (if bw ≤ 0 ∨ bh ≤ 0 then s else t) = if bw ≤ 0 ∨ bh ≤ 0 then s else u :=
  ite_congr rfl (fun _ => rfl) fun hne => h (by omega) (by omega)

/-! ### `DRAWTILE` (R73, R74) -/

theorem exec_drawTile_of_ge (align : Bool) {t : Word} (ht : 768 ≤ t.toNat) (fg bg x y w h : Word) (s : State) :
    exec (.drawTile align t fg bg x y w h) s = .next (Recorded s 0x25#8 2#8 2#8 t) := by
  rw [exec, execDrawTile, if_pos ht]
  rfl

theorem exec_drawTile_of_badCell (align : Bool) {t : Word} (ht : t.toNat < 768) {k : Nat} (hbad : FirstBad s t.toNat k)
    (fg bg x y w h : Word) : exec (.drawTile align t fg bg x y w h) s
      = .next (Recorded s 0x25#8 2#8 3#8 (BitVec.ofNat 32 (64 * t.toNat + k))) := by
  rw [exec, execDrawTile, if_neg (Nat.not_le.2 ht), bicolorFault_eq_some hbad]
  rfl

theorem exec_drawTile_of_bicolor (align : Bool) {t : Word} (ht : t.toNat < 768) (hbi : BicolorTile s t.toNat)
    (fg bg x y w h : Word) : exec (.drawTile align t fg bg x y w h) s
      = .next (if blockSize (coord w) ≤ 0 ∨ blockSize (coord h) ≤ 0 then s
        else s.setFb (drawBi s s.fb t.toNat fg bg (origin align (coord x) (coord w)) (origin align (coord y) (coord h))
          (blockSize (coord w)).toNat (blockSize (coord h)).toNat)) := by
  rw [exec, execDrawTile, if_neg (Nat.not_le.2 ht), bicolorFault_eq_none hbi]

theorem header_drawTile (align : Bool) :
    (if align then 0x00000125#32 else 0x00000025#32) = makeHeader .drawTile align false 0 := by
  cases align <;> rfl

/-- Settles O30: the index check, the bicolor check, then one grid draw of blocks of at least one pixel. -/
theorem drawTileIsItsPixelLoop : Obligations.DrawTileIsItsPixelLoop := by
  intro align t fg bg x y w h s hwf
  refine ⟨fun rest => ?decode, fun ht => exec_drawTile_of_ge align ht fg bg x y w h s,
    fun ht k hbad => exec_drawTile_of_badCell align ht hbad fg bg x y w h, fun ht hbi => ?draw⟩
  case decode =>
    rw [header_drawTile]
    exact Decoding.decodeInvertsEncode (.drawTile align t fg bg x y w h) rest rfl
  case draw =>
    rw [exec_drawTile_of_bicolor align ht hbi]
    exact congrArg _ (ite_emptySize_congr fun hbw hbh => (loopDrawBi_eq (fb_shape hwf) _ _ _ _ _ _ _ hbw hbh).symm)

/-! ### `DRAWTILEMC` (R75) -/

theorem exec_drawTileMc_of_ge (align indexed : Bool) {t : Word} (ht : 768 ≤ t.toNat) (x y w h : Word) (s : State) :
    exec (.drawTileMc align indexed t x y w h) s = .next (Recorded s 0x26#8 2#8 2#8 t) := by
  rw [exec, execDrawTileMc, if_pos ht]
  rfl

theorem exec_drawTileMc_of_badIndex (align : Bool) {t : Word} (ht : t.toNat < 768) {k : Nat}
    (hbad : indexFault s t.toNat = some k) (x y w h : Word) : exec (.drawTileMc align true t x y w h) s
      = .next (Recorded s 0x26#8 3#8 2#8 (cell s t.toNat k)) := by
  rw [exec, execDrawTileMc, if_neg (Nat.not_le.2 ht), if_pos rfl, hbad]
  rfl

theorem exec_drawTileMc_of_good (align : Bool) {indexed : Bool} {t : Word} (ht : t.toNat < 768)
    (hgood : indexed = true → indexFault s t.toNat = none) (x y w h : Word) :
    exec (.drawTileMc align indexed t x y w h) s
      = .next (if blockSize (coord w) ≤ 0 ∨ blockSize (coord h) ≤ 0 then s
        else s.setFb (drawGrid s.fb (fun k => some (multicolor s indexed (cell s t.toNat k)))
          (origin align (coord x) (coord w)) (origin align (coord y) (coord h))
          (blockSize (coord w)).toNat (blockSize (coord h)).toNat)) := by
  rw [exec, execDrawTileMc, if_neg (Nat.not_le.2 ht), ite_eq_right_iff.2 hgood]

theorem header_drawTileMc (align indexed : Bool) :
    ((if align then 0x00000126#32 else 0x00000026#32) ||| (if indexed then 0x200#32 else 0#32))
      = makeHeader .drawTileMc align indexed 0 := by
  cases align <;> cases indexed <;> rfl

/-- Settles O31: the index check, in indexed mode the check of every cell, then one grid draw of blocks of at least one
pixel. -/
theorem drawTileMcIsItsPixelLoop : Obligations.DrawTileMcIsItsPixelLoop := by
  intro align indexed t x y w h s hwf
  refine ⟨fun rest => ?decode, fun ht => exec_drawTileMc_of_ge align indexed ht x y w h s,
    fun ht hindexed k hk hbad hfirst => ?badIndex, fun ht hgood => ?draw⟩
  case decode =>
    rw [header_drawTileMc]
    exact Decoding.decodeInvertsEncode (.drawTileMc align indexed t x y w h) rest rfl
  case badIndex =>
    subst hindexed
    exact exec_drawTileMc_of_badIndex align ht (indexFault_eq_some hk hbad hfirst) x y w h
  case draw =>
    rw [exec_drawTileMc_of_good align ht fun hindexed => indexFault_eq_none (hgood hindexed)]
    exact congrArg _ (ite_emptySize_congr fun hbw hbh => (loopDrawMc_eq (fb_shape hwf) _ _ _ _ _ _ hbw hbh).symm)

/-! ### `DRAWSTRING` (R76) -/

/-- A payload command's header before its operands and a payload that spells `str` is the command built from them, with
`str` as its string, whatever the padding bytes hold (30_encoding.md R42, R44). -/
theorem decode_payload {o : Opcode} (hp : o.hasPayload = true) {ops : List Word} (hops : ops.length = o.nops)
    {str : List Byte} (hlen : str.length ≤ 65535) {ws : List Word} (hws : PayloadSpells ws str) (rest : List Word) :
    decode (makeHeader o false false str.length :: (ops ++ ws ++ rest))
        = .command (buildInstr o (makeHeader o false false str.length) (ops ++ ws)) rest ∧
      (unpackBytes ((ops ++ ws).drop o.nops)).take (hdrCount (makeHeader o false false str.length)) = str := by
  have hcount : hdrCount (makeHeader o false false str.length) = str.length := by
    rw [hdrCount_makeHeader, Nat.mod_eq_of_lt (by omega)]
  have hheader : readHeader (makeHeader o false false str.length) = .ok o :=
    readHeader_makeHeader (by simp [flagsLegal, hp])
  have hbody : (ops ++ ws).length = bodyWords o (makeHeader o false false str.length) := by
    rw [List.length_append, hops, bodyWords, if_pos hp, hcount, payloadWords, hws.1]
  refine ⟨decode_whole hheader hbody rest, ?_⟩
  rw [hcount, ← hops, List.drop_left, take_of_payloadSpells hws]

theorem decode_drawString (x y fg bg w h : Word) {str : List Byte} (hlen : str.length ≤ 65535) {ws : List Word}
    (hws : PayloadSpells ws str) (rest : List Word) :
    decode (makeHeader .drawString false false str.length :: x :: y :: fg :: bg :: w :: h :: (ws ++ rest))
      = .command (.drawString x y fg bg w h str) rest := by
  obtain ⟨hdecode, hstr⟩ :=
    decode_payload (o := .drawString) rfl (ops := [x, y, fg, bg, w, h]) rfl hlen hws rest
  rw [buildInstr, hstr] at hdecode
  exact hdecode

theorem exec_drawString_of_badCell {str : List Byte} {p : Nat} (hbad : stringFault s (effective str) = some p)
    (x y fg bg w h : Word) : exec (.drawString x y fg bg w h str) s
      = .next (Recorded s 0x27#8 2#8 3#8 (BitVec.ofNat 32 p)) := by
  rw [exec, execDrawString, hbad]
  rfl

theorem exec_drawString_of_bicolor {str : List Byte} (hgood : stringFault s (effective str) = none)
    (x y fg bg w h : Word) : exec (.drawString x y fg bg w h str) s
      = .next (if blockSize (coord w) ≤ 0 ∨ blockSize (coord h) ≤ 0 then s
        else s.setFb (drawTiles s fg bg (blockSize (coord w)).toNat (blockSize (coord h)).toNat
          (layout s.cfg.screenW (coord w) (coord h) (coord x) (coord y) (effective str)) s.fb)) := by
  rw [exec, execDrawString, hgood]

/-- The string check in the characters below the effective length: it stops at the first bad tile. -/
theorem stringFault_effective_eq_some {str : List Byte} {n i k : Nat} (hn : IsStrLen str n) (hi : i < n)
    (hbefore : ∀ j < i, BicolorTile s (str.getD j 0#8).toNat) (hbad : FirstBad s (str.getD i 0#8).toNat k) :
    stringFault s (effective str) = some (64 * (str.getD i 0#8).toNat + k) := by
  have hchar : ∀ j ≤ i, (str.take n).getD j 0#8 = str.getD j 0#8 := fun j hj => getD_take _ _ (by omega)
  have hlen : (str.take n).length = n := List.length_take_of_le hn.1
  rw [effective_eq_take hn, ← hchar i le_rfl]
  refine stringFault_eq_some (by omega) (fun j hj => ?_) ?_
  · rw [hchar j hj.le]
    exact hbefore j hj
  · rwa [hchar i le_rfl]

/-- The string check in the characters below the effective length: it passes bicolor tiles. -/
theorem stringFault_effective_eq_none {str : List Byte} {n : Nat} (hn : IsStrLen str n)
    (hgood : ∀ i < n, BicolorTile s (str.getD i 0#8).toNat) : stringFault s (effective str) = none := by
  rw [effective_eq_take hn]
  refine stringFault_eq_none fun i hi => ?_
  have hin : i < n := by
    rw [List.length_take] at hi
    omega
  rw [getD_take _ _ hin]
  exact hgood i hin

/-- Settles O32: the words decode by the payload's spelling, the checks cover the effective length, and the tiles of the
layout drawn in order are what the loop with the wrap test leaves. -/
theorem drawStringIsItsPixelLoop : Obligations.DrawStringIsItsPixelLoop := by
  intro x y fg bg w h str n s hwf hlen hn
  refine ⟨fun ws rest hws => ?decode, fun i k hi hbefore hbad =>
    exec_drawString_of_badCell (stringFault_effective_eq_some hn hi hbefore hbad) x y fg bg w h, fun hgood => ?draw⟩
  case decode =>
    rw [ofNat_eq_makeHeader .drawString _ rfl (by decide)]
    exact decode_drawString x y fg bg w h hlen hws rest
  case draw =>
    rw [exec_drawString_of_bicolor (stringFault_effective_eq_none hn hgood), effective_eq_take hn]
    exact congrArg _ (ite_emptySize_congr fun hbw hbh =>
      (loopDrawString_eq (fb_shape hwf) _ _ _ _ _ _ _ hbw hbh _ _).symm)

end Sys2Proof.TileDraw
end

section
/-! The palette (44_palette.md R77 to R83): `SETCOLORRGB`, `SETCOLORRAW`, `GETCOLOR`, `GENPALETTE`, `LOADPALETTE`,
`SAVEPALETTE`. -/

namespace Sys2Proof.Palette

open Sys2Proof.Machine Sys2Proof.Laws

/-- The frame of one palette write, which R78 and R79 share. -/
theorem setColor_writes_one_entry {s : State} (hwf : Memory.wf s) {i : Nat} (hi : i < 256) (v : Word) :
    OnlyPal s (setColor s i v) ∧ Memory.wf (setColor s i v) ∧
      ∀ j, color (setColor s i v) j = if j = i then v else color s j :=
  ⟨rfl, setColor_wf hwf i v, color_setColor hwf hi v⟩

/-! ### `SETCOLORRGB` (R78) -/

theorem exec_setColorRgb_of_ge {i rgb : Word} (hrgb : wordByte rgb 3 = 0#8) (hi : 256 ≤ i.toNat) (s : State) :
    exec (.setColorRgb i rgb) s = .next (Recorded s 0x30#8 3#8 2#8 i) := by
  rw [exec, execSetColorRgb, if_neg (not_not.2 hrgb), if_pos hi]
  rfl

theorem exec_setColorRgb_of_lt {i rgb : Word} (hrgb : wordByte rgb 3 = 0#8) (hi : i.toNat < 256) (s : State) :
    exec (.setColorRgb i rgb) s = .next (setColor s i.toNat rgb) := by
  rw [exec, execSetColorRgb, if_neg (not_not.2 hrgb), if_neg (Nat.not_le.2 hi), rgbWord_wordByte hrgb]

/-- Settles O33: the reserved byte, then the index, then one entry written; with the reserved byte zero the packed colour
is the operand itself. -/
theorem setColorRgbWritesEntry : Obligations.SetColorRgbWritesEntry := fun i rgb s hwf =>
  ⟨fun rest => Decoding.decodeInvertsEncode (.setColorRgb i rgb) rest rfl,
    fun hbad => Decoding.exec_setColorRgb_of_badOperand i hbad s,
    fun hrgb hi => exec_setColorRgb_of_ge hrgb hi s,
    fun hrgb hi => ⟨_, exec_setColorRgb_of_lt hrgb hi s, setColor_writes_one_entry hwf hi rgb⟩⟩

/-! ### `SETCOLORRAW` (R79) -/

theorem exec_setColorRaw_of_ge {i : Word} (hi : 256 ≤ i.toNat) (v : Word) (s : State) :
    exec (.setColorRaw i v) s = .next (Recorded s 0x31#8 3#8 2#8 i) := by
  rw [exec, execSetColorRaw, if_pos hi]
  rfl

theorem exec_setColorRaw_of_lt {i : Word} (hi : i.toNat < 256) (v : Word) (s : State) :
    exec (.setColorRaw i v) s = .next (setColor s i.toNat v) := by
  rw [exec, execSetColorRaw, if_neg (Nat.not_le.2 hi)]

/-- Settles O34: an index of 256 or more is recorded; any other entry becomes the operand, all 32 bits. -/
theorem setColorRawWritesEntry : Obligations.SetColorRawWritesEntry := fun i v s hwf =>
  ⟨fun rest => Decoding.decodeInvertsEncode (.setColorRaw i v) rest rfl,
    fun hi => exec_setColorRaw_of_ge hi v s,
    fun hi => ⟨_, exec_setColorRaw_of_lt hi v s, setColor_writes_one_entry hwf hi v⟩⟩

/-! ### `GETCOLOR` (R80) -/

theorem exec_getColor (i : Word) (s : State) : exec (.getColor i) s
    = .next (if 256 ≤ i.toNat then Recorded s 0x32#8 3#8 2#8 i else { s with result := color s i.toNat }) := rfl

/-- Settles O35: the index check, then the entry read into `RESULT`. -/
theorem getColorReadsEntry : Obligations.GetColorReadsEntry := fun i s =>
  ⟨fun rest => Decoding.decodeInvertsEncode (.getColor i) rest rfl, exec_getColor i s⟩

/-! ### `GENPALETTE` (R81) -/

theorem exec_genPalette (s : State) : exec .genPalette s = .next (s.setPal s.cfg.defaultPalette) := rfl

/-- Settles O36: the table written is `DEFAULT_PALETTE` itself, and index 0 passes the check of `GETCOLOR`. -/
theorem genPaletteWritesDefault : Obligations.GenPaletteWritesDefault := fun s =>
  ⟨fun rest => Decoding.decodeInvertsEncode .genPalette rest rfl, _, exec_genPalette s, rfl, fun _ _ => rfl,
    by rw [exec_getColor, if_neg (by decide)]; rfl⟩

/-! ### `LOADPALETTE` and `SAVEPALETTE` (R82, R83, with the block layout of 20_memory.md R28 and R31) -/

theorem exec_loadPalette (s : State) : exec .loadPalette s
    = .next (loadBlock s .loadPalette 1024 fun u b => u.setPal (paletteOfBlock b)) := rfl

theorem exec_savePalette (s : State) : exec .savePalette s = .next (saveBlock s .savePalette (paletteBlock s)) := rfl

/-- Entry `i` of the palette a block holds is its bytes from `4i` on, least significant first (R28, R31). -/
theorem color_paletteOfBlock (s : State) {b : List Byte} {i : Nat} (hi : 4 * i + 3 < b.length) :
    color (s.setPal (paletteOfBlock b)) i =
      b.getD (4 * i + 3) 0#8 ++ b.getD (4 * i + 2) 0#8 ++ b.getD (4 * i + 1) 0#8 ++ b.getD (4 * i) 0#8 :=
  getD_packBytes b hi

/-- Byte `4i + j` of the palette block is byte `j` of entry `i` (R28, R31). -/
theorem getD_paletteBlock (s : State) (i : Nat) {j : Nat} (hj : j < 4) :
    (paletteBlock s).getD (4 * i + j) 0#8 = (color s i).extractLsb' (8 * j) 8 :=
  getD_unpackBytes s.pal i hj

/-- Settles O37: each source is one case of the block port, and the first 1024 bytes of a long one are packed into
words. -/
theorem loadPaletteReadsBlock : Obligations.LoadPaletteReadsBlock := by
  intro s
  refine ⟨fun rest => Decoding.decodeInvertsEncode .loadPalette rest rfl, fun hsrc => ?unopenable,
    fun hsrc => ?unreadable, fun b hsrc => ⟨fun hb => ?short, fun hb => ?long⟩⟩ <;> rw [exec_loadPalette]
  case unopenable => rw [loadBlock_of_unopenable hsrc]; rfl
  case unreadable => rw [loadBlock_of_unreadable hsrc]; rfl
  case short => rw [loadBlock_of_short hsrc hb]; rfl
  case long =>
    have hlen : (b.take 1024).length = 1024 := List.length_take_of_le hb
    refine ⟨_, by rw [loadBlock_of_long hsrc hb], rfl, paletteOfBlock_wf hlen, fun i hi => ?_⟩
    rw [color_paletteOfBlock _ (by omega), getD_take _ _ (by omega), getD_take _ _ (by omega), getD_take _ _ (by omega),
      getD_take _ _ (by omega)]

/-- Settles O38: each sink is one case of the block port, and the block is the entries unpacked into bytes. -/
theorem savePaletteWritesBlock : Obligations.SavePaletteWritesBlock := by
  intro s hwf
  refine ⟨fun rest => Decoding.decodeInvertsEncode .savePalette rest rfl, fun hsink => ?accepts,
    fun hsink => ?unopenable, fun hsink => ?unwritable⟩ <;> rw [exec_savePalette]
  case accepts =>
    rw [saveBlock_of_accepts hsink]
    exact ⟨_, rfl, length_paletteBlock hwf, fun i _ _ hj => getD_paletteBlock s i hj⟩
  case unopenable => rw [saveBlock_of_unopenable hsink]; rfl
  case unwritable => rw [saveBlock_of_unwritable hsink]; rfl

end Sys2Proof.Palette
end

section
/-! Faults (60_exceptions.md): what fault entry records (R84, R85), and that a command which records a fault has no other
effect on the architectural state (R86, R89). -/

namespace Sys2Proof.Exceptions

open Sys2Proof.Machine Sys2Proof.Laws Sys2Proof.StateRules

/-- Settles O8: `raise` records the condition's row of R84, one row after the other. -/
theorem faultEntryRecordsCodeSubAndInfo : Obligations.FaultEntryRecordsCodeSubAndInfo := fun s o v n =>
  ⟨raise_eq_recorded s o .ioOpen, raise_eq_recorded s o .ioRead, raise_eq_recorded s o .ioWrite,
    raise_eq_recorded s o (.glyphIndex v), raise_eq_recorded s o (.tileIndex v), raise_eq_recorded s o (.paletteIndex v),
    raise_eq_recorded s o (.cellIndex v), raise_eq_recorded s o (.badChar n), raise_eq_recorded s o (.badCell n),
    raise_eq_recorded s o (.reservedOpcode v), raise_eq_recorded s o (.headerField v),
    raise_eq_recorded s o (.operandField v)⟩

variable {i : Instr} {s t : State}

/-- The parameters, the tables, `FB`, `DISPLAY`, `RESULT` and the stream are the same in both states: the state that
R86 keeps from a faulting command. -/
structure SameButFaultRegsAndPort (s t : State) : Prop where
  cfg : t.cfg = s.cfg := by simp
  charset : t.charset = s.charset := by simp
  fb : t.fb = s.fb := by simp
  tile : t.tile = s.tile := by simp
  pal : t.pal = s.pal := by simp
  display : t.display = s.display := by simp
  result : t.result = s.result := by simp
  stream : t.stream = s.stream := by simp

theorem sameButFaultRegsAndPort_of_portUse (h : PortUse i s t) : SameButFaultRegsAndPort s t := by
  cases h with
  | untouched => exact {}
  | load => exact {}
  | save => exact {}

/-- An update either is fault entry with a fault that R89 lists for the command, or leaves the fault registers alone. -/
theorem keeps_faultRegs_or_raises_of_update (h : Update i s t) :
    (t.fstat = s.fstat ∧ t.fcode = s.fcode ∧ t.finfo = s.finfo) ∨
      ∃ c, (conditionCode c, conditionSub c) ∈ specFaults i ∧ t = raise s i.opcode c := by
  cases h with
  | fault c hc => exact .inr ⟨c, hc, rfl⟩
  | same | charset | tile | pal | fb | display | result => exact .inl ⟨rfl, rfl, rfl⟩

/-- Settles O10: using the port touches neither the tables nor the fault registers, and the update after it is fault
entry or leaves the fault registers alone. -/
theorem faultingCommandHasNoOtherEffect : Obligations.FaultingCommandHasNoOtherEffect := by
  intro i s t h
  obtain ⟨u, hport, hupdate⟩ := change_of_exec h
  obtain ⟨hstat, hcode, hinfo⟩ := hport.faultRegs
  obtain ⟨hstat', hcode', hinfo'⟩ | ⟨c, hc, rfl⟩ := keeps_faultRegs_or_raises_of_update hupdate
  · exact .inl ⟨hstat'.trans hstat, hcode'.trans hcode, hinfo'.trans hinfo⟩
  · obtain ⟨hcfg, hcharset, hfb, htile, hpal, hdisplay, hresult, hstream⟩ := sameButFaultRegsAndPort_of_portUse hport
    exact .inr ⟨_, hc, by rw [raise_fstat, fstatWith, hstat], rfl, hcfg, hcharset, hfb, htile, hpal, hdisplay, hresult,
      hstream⟩

end Sys2Proof.Exceptions
end

section
/-! The bound sources and sinks of the block port are met in the order of their binding (20_memory.md section 6): a bound
one is the answer of the next `LOAD*` or `SAVE*`, no free value is drawn for it, and using it takes it off its list. -/

namespace Sys2Proof.PortOrder

open Sys2Proof.Machine

variable {s : State}

section
variable {src : Source} {srcs : List Source} (h : s.sources = src :: srcs)
include h

theorem nextSource_of_bound : nextSource s = src := by
  rw [nextSource, h]

theorem useSource_of_bound : useSource s = { s with sources := srcs } := by
  rw [useSource, h]
  rfl

end

section
variable {snk : Sink} {snks : List Sink} (h : s.sinks = snk :: snks)
include h

theorem nextSink_of_bound : nextSink s = snk := by
  rw [nextSink, h]

theorem useSink_of_bound : useSink s = { s with sinks := snks } := by
  rw [useSink, h]
  rfl

end

/-- Settles O40: a bound source or sink is the head of its list, and using it leaves the tail. -/
theorem boundPortIsUsedInOrder : Obligations.BoundPortIsUsedInOrder :=
  fun _ _ _ _ _ =>
    ⟨fun hsrc => ⟨nextSource_of_bound hsrc, useSource_of_bound hsrc⟩,
      fun hsnk => ⟨nextSink_of_bound hsnk, useSink_of_bound hsnk⟩⟩

end Sys2Proof.PortOrder
end
